-- ==== Sys2Proof/Word.lean ====
section
/-! DEFINITION. The types of the spec's values whose size is no parameter: instruction words, memory cells, register fields. -/

namespace Sys2Proof

/-- An 8-bit value: a memory cell (R42), the NN field (R101), and what a register or a timer of this hardware holds. -/
abbrev Byte := BitVec 8

/-- A 16-bit value: an instruction word (R100). -/
abbrev Word := BitVec 16

/-- A 16-bit address: a field of the fault record (R232), and what PC, I and a stack entry of this hardware hold. -/
abbrev Addr := BitVec 16

/-- A register name V0..VF, as the 4-bit X and Y fields give it (R31, R103). -/
abbrev Reg := Fin 16

end Sys2Proof
end

