-- ==== Sys2Proof/Syntax.lean ====
section
/-! DEFINITION. The instructions: one constructor per row of spec/opcode_table.json (30_encoding.md R107, R113). -/

namespace Sys2Proof

/-- The 34 standard instructions and DRW0, the N = 0 form of DXYN. The fields are those of R101. -/
inductive Instr where
  /-- 00E0 (R130) -/
  | cls
  /-- 00EE (R131) -/
  | ret
  /-- 1NNN (R132) -/
  | jp (nnn : BitVec 12)
  /-- 2NNN (R133) -/
  | call (nnn : BitVec 12)
  /-- 3XNN (R140) -/
  | seB (x : Reg) (nn : Byte)
  /-- 4XNN (R141) -/
  | sneB (x : Reg) (nn : Byte)
  /-- 5XY0 (R142) -/
  | seR (x y : Reg)
  /-- 6XNN (R150) -/
  | ldB (x : Reg) (nn : Byte)
  /-- 7XNN (R151) -/
  | addB (x : Reg) (nn : Byte)
  /-- 8XY0 (R152) -/
  | ldR (x y : Reg)
  /-- 8XY1 (R153) -/
  | or (x y : Reg)
  /-- 8XY2 (R154) -/
  | and (x y : Reg)
  /-- 8XY3 (R155) -/
  | xor (x y : Reg)
  /-- 8XY4 (R156) -/
  | addR (x y : Reg)
  /-- 8XY5 (R157) -/
  | sub (x y : Reg)
  /-- 8XY6 (R158); y is encoded but not read -/
  | shr (x y : Reg)
  /-- 8XY7 (R159) -/
  | subn (x y : Reg)
  /-- 8XYE (R160); y is encoded but not read -/
  | shl (x y : Reg)
  /-- 9XY0 (R143) -/
  | sneR (x y : Reg)
  /-- ANNN (R170) -/
  | ldI (nnn : BitVec 12)
  /-- BNNN (R171) -/
  | jpV0 (nnn : BitVec 12)
  /-- CXNN (R172) -/
  | rnd (x : Reg) (nn : Byte)
  /-- DXYN with N from 1 to 15 (R180) -/
  | drw (x y : Reg) (n : Fin 16)
  /-- DXY0 in standard mode (R181) -/
  | drw0 (x y : Reg)
  /-- EX9E (R183) -/
  | skp (x : Reg)
  /-- EXA1 (R184) -/
  | sknp (x : Reg)
  /-- FX07 (R200) -/
  | ldVxDt (x : Reg)
  /-- FX0A (R201) -/
  | ldVxK (x : Reg)
  /-- FX15 (R202) -/
  | ldDtVx (x : Reg)
  /-- FX18 (R203) -/
  | ldStVx (x : Reg)
  /-- FX1E (R204) -/
  | addI (x : Reg)
  /-- FX29 (R205) -/
  | ldF (x : Reg)
  /-- FX33 (R206) -/
  | ldBcd (x : Reg)
  /-- FX55 (R207) -/
  | ldMemVx (x : Reg)
  /-- FX65 (R208) -/
  | ldVxMem (x : Reg)
deriving DecidableEq, Repr

end Sys2Proof
end

