-- ==== Sys2Proof/WellFormed.lean ====
section
/-! DEFINITION. Which terms of Instr are instructions of the table. -/

namespace Sys2Proof

/-- The one check: DXYN is DRW only when N is not 0 (R107, R180; the table's constraint "n != 0"). Every other
field may take every value its width admits (R103). -/
def Instr.wellFormed : Instr → Bool
  | .drw _ _ n => n != 0
  | .cls | .ret | .jp _ | .call _ | .seB _ _ | .sneB _ _ | .seR _ _ | .ldB _ _ | .addB _ _ | .ldR _ _
  | .or _ _ | .and _ _ | .xor _ _ | .addR _ _ | .sub _ _ | .shr _ _ | .subn _ _ | .shl _ _ | .sneR _ _
  | .ldI _ | .jpV0 _ | .rnd _ _ | .drw0 _ _ | .skp _ | .sknp _ | .ldVxDt _ | .ldVxK _ | .ldDtVx _
  | .ldStVx _ | .addI _ | .ldF _ | .ldBcd _ | .ldMemVx _ | .ldVxMem _ => true

/-- `wellFormed` as a proposition. -/
abbrev WellFormed (i : Instr) : Prop := i.wellFormed = true

end Sys2Proof
end

