-- ==== Sys2Proof/Decode.lean ====
section
/-! DEFINITION. The dispatch table as a total decoder, and the encoder (30_encoding.md R100 to R110, 46_extended.md R222, R223). -/

namespace Sys2Proof

/-- What a word decodes to (R107): an instruction, the Unknown space (R109) or the Refused space (R110). -/
inductive Decoded where
  | instr (i : Instr)
  /-- matches no family: a DecodeFault (R109, R111) -/
  | unknown
  /-- an extended word in extended mode: the spec gives it no meaning (R110, R221) -/
  | refusedExt
deriving DecidableEq, Repr

/-- `w[15:12]`, the family selector (R101). -/
def fieldOp (w : Word) : BitVec 4 := w.extractLsb' 12 4

/-- `w[11:8]` (R101). -/
def fieldX (w : Word) : BitVec 4 := w.extractLsb' 8 4

/-- `w[7:4]` (R101). -/
def fieldY (w : Word) : BitVec 4 := w.extractLsb' 4 4

/-- `w[3:0]` (R101). -/
def fieldN (w : Word) : BitVec 4 := w.extractLsb' 0 4

/-- `w[7:0]` (R101). -/
def fieldNn (w : Word) : Byte := w.extractLsb' 0 8

/-- `w[11:0]` (R101). -/
def fieldNnn (w : Word) : BitVec 12 := w.extractLsb' 0 12

/-- The register (or count) a 4-bit field names (R103). -/
def ofNibble (b : BitVec 4) : Fin 16 := ⟨b.toNat, b.isLt⟩

/-- The 4-bit field that names a register (or count). -/
def toNibble (x : Fin 16) : BitVec 4 := BitVec.ofNat 4 x.val

/-- EXT0 of R108: the extended words of family 0. -/
def isExt0 (w : Word) : Bool :=
  (0x00C0 ≤ w.toNat && w.toNat ≤ 0x00CF) || (0x00FB ≤ w.toNat && w.toNat ≤ 0x00FF)

/-- A word of the extended space: refused while extended mode is active, otherwise Unknown (R110). -/
def extendedWord (ext : Bool) : Decoded := if ext then .refusedExt else .unknown

/-- Family 0 (R108). -/
def decode0 (w : Word) (ext : Bool) : Decoded :=
  if w = 0x00E0#16 then .instr .cls
  else if w = 0x00EE#16 then .instr .ret
  else if isExt0 w then extendedWord ext
  else .unknown

/-- Family 8, by its sub-function `n` (R108). -/
def decode8 (x y : Reg) (n : BitVec 4) : Decoded :=
  match n with
  | 0x0#4 => .instr (.ldR x y)
  | 0x1#4 => .instr (.or x y)
  | 0x2#4 => .instr (.and x y)
  | 0x3#4 => .instr (.xor x y)
  | 0x4#4 => .instr (.addR x y)
  | 0x5#4 => .instr (.sub x y)
  | 0x6#4 => .instr (.shr x y)
  | 0x7#4 => .instr (.subn x y)
  | 0xE#4 => .instr (.shl x y)
  | _ => .unknown

/-- Family D: DRW, or with N = 0 the no-op draw, which extended mode refuses (R107, R181, R223). -/
def decodeD (x y : Reg) (n : BitVec 4) (ext : Bool) : Decoded :=
  if n ≠ 0#4 then .instr (.drw x y (ofNibble n))
  else if ext then .refusedExt
  else .instr (.drw0 x y)

/-- Family E, by its sub-function `nn` (R108). -/
def decodeE (x : Reg) (nn : Byte) : Decoded :=
  match nn with
  | 0x9E#8 => .instr (.skp x)
  | 0xA1#8 => .instr (.sknp x)
  | _ => .unknown

/-- Family F, by its sub-function `nn` (R108). -/
def decodeF (x : Reg) (nn : Byte) (ext : Bool) : Decoded :=
  match nn with
  | 0x07#8 => .instr (.ldVxDt x)
  | 0x0A#8 => .instr (.ldVxK x)
  | 0x15#8 => .instr (.ldDtVx x)
  | 0x18#8 => .instr (.ldStVx x)
  | 0x1E#8 => .instr (.addI x)
  | 0x29#8 => .instr (.ldF x)
  | 0x33#8 => .instr (.ldBcd x)
  | 0x55#8 => .instr (.ldMemVx x)
  | 0x65#8 => .instr (.ldVxMem x)
  | 0x30#8 | 0x75#8 | 0x85#8 => extendedWord ext
  | _ => .unknown

/-- Decode(w, ext) of R108, for every word in either mode. -/
def decode (w : Word) (ext : Bool) : Decoded :=
  let x := ofNibble (fieldX w)
  let y := ofNibble (fieldY w)
  let n := fieldN w
  let nn := fieldNn w
  let nnn := fieldNnn w
  match fieldOp w with
  | 0x0#4 => decode0 w ext
  | 0x1#4 => .instr (.jp nnn)
  | 0x2#4 => .instr (.call nnn)
  | 0x3#4 => .instr (.seB x nn)
  | 0x4#4 => .instr (.sneB x nn)
  | 0x5#4 => if n = 0#4 then .instr (.seR x y) else .unknown
  | 0x6#4 => .instr (.ldB x nn)
  | 0x7#4 => .instr (.addB x nn)
  | 0x8#4 => decode8 x y n
  | 0x9#4 => if n = 0#4 then .instr (.sneR x y) else .unknown
  | 0xA#4 => .instr (.ldI nnn)
  | 0xB#4 => .instr (.jpV0 nnn)
  | 0xC#4 => .instr (.rnd x nn)
  | 0xD#4 => decodeD x y n ext
  | 0xE#4 => decodeE x nn
  | _ => decodeF x nn ext

/-- The instruction word of two consecutive bytes: big-endian, the high byte at the lower address (R76, R77). -/
def wordOfBytes (hi lo : Byte) : Word := hi ++ lo

/-- The byte of a word at the lower address (R77). -/
def highByte (w : Word) : Byte := w.extractLsb' 8 8

/-- The byte of a word at the higher address (R77). -/
def lowByte (w : Word) : Byte := w.extractLsb' 0 8

/-- The decoder on bytes as memory holds them, with the bytes left over; none where no whole word is there (R100). -/
def decodeBytes (bytes : List Byte) (ext : Bool) : Option (Decoded × List Byte) :=
  match bytes with
  | hi :: lo :: rest => some (decode (wordOfBytes hi lo) ext, rest)
  | _ => none

/-- Format A (R102). -/
def encA (op : BitVec 4) (nnn : BitVec 12) : Word := op ++ nnn

/-- Formats XB and XF (R102). -/
def encXB (op : BitVec 4) (x : Reg) (nn : Byte) : Word := op ++ toNibble x ++ nn

/-- Formats XY and XYN (R102). -/
def encXY (op : BitVec 4) (x y : Reg) (n : BitVec 4) : Word := op ++ toNibble x ++ toNibble y ++ n

/-- The word of an instruction (R102, R107, the match column of spec/opcode_table.json). -/
def encode : Instr → Word
  | .cls => 0x00E0#16
  | .ret => 0x00EE#16
  | .jp nnn => encA 0x1#4 nnn
  | .call nnn => encA 0x2#4 nnn
  | .seB x nn => encXB 0x3#4 x nn
  | .sneB x nn => encXB 0x4#4 x nn
  | .seR x y => encXY 0x5#4 x y 0x0#4
  | .ldB x nn => encXB 0x6#4 x nn
  | .addB x nn => encXB 0x7#4 x nn
  | .ldR x y => encXY 0x8#4 x y 0x0#4
  | .or x y => encXY 0x8#4 x y 0x1#4
  | .and x y => encXY 0x8#4 x y 0x2#4
  | .xor x y => encXY 0x8#4 x y 0x3#4
  | .addR x y => encXY 0x8#4 x y 0x4#4
  | .sub x y => encXY 0x8#4 x y 0x5#4
  | .shr x y => encXY 0x8#4 x y 0x6#4
  | .subn x y => encXY 0x8#4 x y 0x7#4
  | .shl x y => encXY 0x8#4 x y 0xE#4
  | .sneR x y => encXY 0x9#4 x y 0x0#4
  | .ldI nnn => encA 0xA#4 nnn
  | .jpV0 nnn => encA 0xB#4 nnn
  | .rnd x nn => encXB 0xC#4 x nn
  | .drw x y n => encXY 0xD#4 x y (toNibble n)
  | .drw0 x y => encXY 0xD#4 x y 0x0#4
  | .skp x => encXB 0xE#4 x 0x9E#8
  | .sknp x => encXB 0xE#4 x 0xA1#8
  | .ldVxDt x => encXB 0xF#4 x 0x07#8
  | .ldVxK x => encXB 0xF#4 x 0x0A#8
  | .ldDtVx x => encXB 0xF#4 x 0x15#8
  | .ldStVx x => encXB 0xF#4 x 0x18#8
  | .addI x => encXB 0xF#4 x 0x1E#8
  | .ldF x => encXB 0xF#4 x 0x29#8
  | .ldBcd x => encXB 0xF#4 x 0x33#8
  | .ldMemVx x => encXB 0xF#4 x 0x55#8
  | .ldVxMem x => encXB 0xF#4 x 0x65#8

/-- The 16-bit word the table numbers as `w` (an instruction is one word, so a shorter row has zeros above). -/
def tableWord (nbits w : Nat) : Word := BitVec.ofNat 16 (w % 2 ^ nbits)

/-- The instruction the decoder reads, in standard mode (the mode after reset, R54), from a row of
spec/opcode_table.json whose bits are `w`. -/
def decodeTableWord (nbits w : Nat) : Option Instr :=
  match decodeBytes [highByte (tableWord nbits w), lowByte (tableWord nbits w)] false with
  | some (.instr i, _) => some i
  | some (.unknown, _) => none
  | some (.refusedExt, _) => none
  | none => none

end Sys2Proof
end

