-- ==== Sys2Proof/Config.lean ====
section
/-! DEFINITION. The configuration of the block (00_scope.md R5, R10): the values this hardware takes, its one free value, and
the record of parameters that every operation of the machine takes (10_state.md R52). EXT_OPCODES, a meaning over the state,
is an argument of the cycle (Machine/Cycle.lean). -/

namespace Sys2Proof.Config

/-- MEM_SIZE: bytes in MemoryImage. -/
@[simp] abbrev memSize : Nat := 4096

/-- RESERVED_LO: the first address of the interpreter and font area. -/
@[simp] abbrev reservedLo : Nat := 0x000

/-- RESERVED_HI: the last address of the interpreter and font area. -/
@[simp] abbrev reservedHi : Nat := 0x1FF

/-- LOAD_ADDR: where a program image is placed, and PC after reset. -/
@[simp] abbrev loadAddr : Nat := 0x200

/-- NUM_V: general registers. -/
@[simp] abbrev numV : Nat := 16

/-- V_WIDTH: width of each Vx. -/
@[simp] abbrev vWidth : Nat := 8

/-- I_WIDTH: width of I. -/
@[simp] abbrev iWidth : Nat := 16

/-- PC_WIDTH: width of PC. -/
@[simp] abbrev pcWidth : Nat := 16

/-- STACK_DEPTH: entries of the CallStack. -/
@[simp] abbrev stackDepth : Nat := 16

/-- STACK_ENTRY_WIDTH: width of one return address (spec decision D4). -/
@[simp] abbrev stackEntryWidth : Nat := 16

/-- TIMER_WIDTH: width of DT and ST. -/
@[simp] abbrev timerWidth : Nat := 8

/-- TIMER_HZ: the calls of tick_timers() the host must make in a second (R251). -/
@[simp] abbrev timerHz : Nat := 60

/-- FB_STD: the framebuffer's width in standard mode. -/
@[simp] abbrev stdWidth : Nat := 64

/-- FB_STD: the framebuffer's height in standard mode. -/
@[simp] abbrev stdHeight : Nat := 32

/-- FB_EXT: the framebuffer's width in extended mode. -/
@[simp] abbrev extWidth : Nat := 128

/-- FB_EXT: the framebuffer's height in extended mode. -/
@[simp] abbrev extHeight : Nat := 64

/-- NUM_KEYS: InputLatch entries. -/
@[simp] abbrev numKeys : Nat := 16

/-- FONT_BASE: the address of glyph 0 (spec decision D5). -/
@[simp] abbrev fontBase : Nat := 0

/-- FONT_STRIDE: bytes per glyph (spec decision D5). -/
@[simp] abbrev fontStride : Nat := 5

/-- ODD_PC_FAULTS: whether a fetch at an odd PC faults (spec decision D6). -/
@[simp] abbrev oddPcFaults : Bool := true

/-- DFC_WIDTH: width of the DecodeFault counter (spec decision D7). -/
@[simp] abbrev dfcWidth : Nat := 32

/-- FONT_DATA: the table of 20_memory.md R78, one glyph a row (spec decision D5; UNVERIFIED, log 5). -/
def fontData : List Byte :=
  [0xF0, 0x90, 0x90, 0x90, 0xF0] ++ -- 0
  [0x20, 0x60, 0x20, 0x20, 0x70] ++ -- 1
  [0xF0, 0x10, 0xF0, 0x80, 0xF0] ++ -- 2
  [0xF0, 0x10, 0xF0, 0x10, 0xF0] ++ -- 3
  [0x90, 0x90, 0xF0, 0x10, 0x10] ++ -- 4
  [0xF0, 0x80, 0xF0, 0x10, 0xF0] ++ -- 5
  [0xF0, 0x80, 0xF0, 0x90, 0xF0] ++ -- 6
  [0xF0, 0x10, 0x20, 0x40, 0x40] ++ -- 7
  [0xF0, 0x90, 0xF0, 0x90, 0xF0] ++ -- 8
  [0xF0, 0x90, 0xF0, 0x10, 0xF0] ++ -- 9
  [0xF0, 0x90, 0xF0, 0x90, 0x90] ++ -- A
  [0xE0, 0x90, 0xE0, 0x90, 0xE0] ++ -- B
  [0xF0, 0x80, 0x80, 0x80, 0xF0] ++ -- C
  [0xE0, 0x90, 0x90, 0x90, 0xE0] ++ -- D
  [0xF0, 0x80, 0xF0, 0x80, 0xF0] ++ -- E
  [0xF0, 0x80, 0xF0, 0x80, 0x80]    -- F

/-- RANDOM: the byte the n-th execution of CXNN draws (R13, R52, R172; spec decision D9). The spec fixes no
generator, so this is a free value: it has no body, and a claim about it holds for every one (log 4). -/
opaque random8 : Nat → Byte

end Sys2Proof.Config

namespace Sys2Proof

/-- The configuration: one field for each parameter of R10, EXT_OPCODES apart. It is no state but an input of the step
(R52). A rule that writes out a size (mod 256, 65536, 0xFFFFFFFF) is read with the parameter's size in its place (log 18). -/
structure Params where
  /-- MEM_SIZE -/
  memSize         : Nat
  /-- RESERVED_LO -/
  reservedLo      : Nat
  /-- RESERVED_HI -/
  reservedHi      : Nat
  /-- LOAD_ADDR -/
  loadAddr        : Nat
  /-- NUM_V -/
  numV            : Nat
  /-- every X and Y field names a register (R31) -/
  numV_fields     : 16 ≤ numV
  /-- V_WIDTH -/
  vWidth          : Nat
  /-- I_WIDTH -/
  iWidth          : Nat
  /-- PC_WIDTH -/
  pcWidth         : Nat
  /-- STACK_DEPTH -/
  stackDepth      : Nat
  /-- STACK_ENTRY_WIDTH -/
  stackEntryWidth : Nat
  /-- TIMER_WIDTH -/
  timerWidth      : Nat
  /-- TIMER_HZ -/
  timerHz         : Nat
  /-- FB_STD, the width -/
  stdWidth        : Nat
  /-- FB_STD, the height -/
  stdHeight       : Nat
  /-- FB_EXT, the width -/
  extWidth        : Nat
  /-- FB_EXT, the height -/
  extHeight       : Nat
  /-- NUM_KEYS -/
  numKeys         : Nat
  /-- FONT_BASE -/
  fontBase        : Nat
  /-- FONT_STRIDE -/
  fontStride      : Nat
  /-- FONT_DATA -/
  fontData        : List Byte
  /-- ODD_PC_FAULTS -/
  oddPcFaults     : Bool
  /-- DFC_WIDTH -/
  dfcWidth        : Nat
  /-- RANDOM: the byte the n-th execution of CXNN draws -/
  random8         : Nat → Byte

/-- MAX_IMAGE, the longest program image: MEM_SIZE - LOAD_ADDR (R10). -/
def Params.maxImage (c : Params) : Nat := c.memSize - c.loadAddr

/-- The configuration of this hardware: the values of R10. -/
abbrev Params.hardware : Params where
  memSize         := Config.memSize
  reservedLo      := Config.reservedLo
  reservedHi      := Config.reservedHi
  loadAddr        := Config.loadAddr
  numV            := Config.numV
  numV_fields     := Nat.le_refl 16
  vWidth          := Config.vWidth
  iWidth          := Config.iWidth
  pcWidth         := Config.pcWidth
  stackDepth      := Config.stackDepth
  stackEntryWidth := Config.stackEntryWidth
  timerWidth      := Config.timerWidth
  timerHz         := Config.timerHz
  stdWidth        := Config.stdWidth
  stdHeight       := Config.stdHeight
  extWidth        := Config.extWidth
  extHeight       := Config.extHeight
  numKeys         := Config.numKeys
  fontBase        := Config.fontBase
  fontStride      := Config.fontStride
  fontData        := Config.fontData
  oddPcFaults     := Config.oddPcFaults
  dfcWidth        := Config.dfcWidth
  random8         := Config.random8

/-- Every X and Y field names a register of the configuration (R31). -/
theorem Reg.inV (x : Reg) (c : Params) : x.val < c.numV := Nat.lt_of_lt_of_le x.isLt c.numV_fields

/-- A key name of the InputLatch: 0x0..0xF on this hardware (R46). -/
abbrev Key (c : Params := .hardware) := Fin c.numKeys

end Sys2Proof
end

