-- ==== Sys2Proof/Machine/State.lean ====
section
/-! DEFINITION. The state of the block (10_state.md R30), the reasons a step stops, and the state after reset (R53, R54). -/

namespace Sys2Proof.Machine

/-- MemoryImage as plain data: the cells that differ from the reset image, by rising address (R42, R53; log 6). -/
abbrev Memory := List Host.Cell

/-- A grid of 1-bit pixels, row by row; true is 1, set (R43, R44). -/
abbrev Grid (w h : Nat) := Vector (Vector Bool w) h

/-- The framebuffer of a configuration (of this hardware's, where none is given): the active mode (which constructor) and
its grid (R43, R45; log 7). -/
inductive Framebuffer (c : Params := .hardware) where
  /-- active_ext false: 64 by 32 -/
  | standard (g : Grid c.stdWidth c.stdHeight)
  /-- active_ext true: 128 by 64 -/
  | extended (g : Grid c.extWidth c.extHeight)
deriving DecidableEq, Repr

/-- The kinds of latched fault (R231). -/
inductive FaultKind where
  | stackOverflow
  | stackUnderflow
  | outOfBoundsAccess
  | misalignedFetch
deriving DecidableEq, Repr

/-- The two index spaces the block range-checks (R233). -/
inductive Space where
  | mem
  | key
deriving DecidableEq, Repr

/-- The fault record, its fields 16 bits wide (R50, R232). -/
structure FaultRecord where
  kind  : FaultKind
  /-- the PC of the faulting cycle -/
  pc    : Addr
  /-- the fetched word, or 0 when the fetch itself faulted -/
  word  : Word
  /-- the offending address or key index mod 65536; 0 for stack faults -/
  addr  : Word
  /-- `mem` unless the kind is OutOfBoundsAccess -/
  space : Space
deriving DecidableEq, Repr

/-- What last_df holds, its fields 16 bits wide (R48, R50). -/
structure DecodeFaultRecord where
  pc   : Addr
  word : Word
deriving DecidableEq, Repr

/-- The whole state of the block (R30), with the refusal mark (R240, R270) and the model's own draw counter. The
configuration gives its sizes; `State` with none given is the state of this hardware. -/
structure State (c : Params := .hardware) where
  /-- V0..VF (R31) -/
  v           : Vector (BitVec c.vWidth) c.numV
  /-- I (R34) -/
  i           : BitVec c.iWidth
  /-- PC (R35) -/
  pc          : BitVec c.pcWidth
  /-- the CallStack, `stack[0]` first; SP is its length (R38) -/
  stack       : List (BitVec c.stackEntryWidth)
  /-- DT (R40) -/
  dt          : BitVec c.timerWidth
  /-- ST (R40) -/
  st          : BitVec c.timerWidth
  /-- MemoryImage (R42) -/
  mem         : Memory
  /-- fb: the active mode and the pixels (R43, R45) -/
  fb          : Framebuffer c
  /-- mode_ext, the host-written mode flag (R45) -/
  modeExt     : Bool
  /-- InputLatch (R46) -/
  keys        : Vector Bool c.numKeys
  /-- the latched fault (R47) -/
  fault       : Option FaultRecord
  /-- the count of DecodeFaults (R48) -/
  dfc         : BitVec c.dfcWidth
  /-- the most recent DecodeFault (R48) -/
  lastDf      : Option DecodeFaultRecord
  /-- a cycle has run since the last reset (R49) -/
  ran         : Bool
  /-- the refusal mark (R240, R270) -/
  refusalMark : Bool
  /-- the model's own field: how many draws of Random8() have been made (R52, R172; log 4) -/
  draws       : Nat
deriving DecidableEq, Repr

/-- Why a step stops with a fault. -/
inductive Fault where
  /-- Raised by `step` when a fault is latched: cycle() has no step and reports the latched fault again (R236).
  The cycle that raises the fault is itself a next state (R234). Safe (log 1). -/
  | latched (r : FaultRecord)
deriving DecidableEq, Repr

/-- Why a step, or a host operation, has no meaning. -/
inductive Refusal where
  /-- Raised by an arm of `exec` whose instruction has no meaning yet. Safe. No arm is left so. -/
  | notModelled (mnemonic : String)
  /-- Raised by the cycle, and by DRW0, on a word of the extended space in extended mode: the spec gives it no
  meaning (R221, R223, R240). Safe (log 2). -/
  | extendedOpcode (w : Word)
  /-- Raised by `step` once the refusal mark is set: nothing is claimed about such a run (R240). Safe (log 3). -/
  | refusalMarked
  /-- Raised by the host operation `load` when a cycle has run since the last reset (R273). Safe (log 10). -/
  | loadAfterRun
deriving DecidableEq, Repr

/-- What an instruction or a step answers. -/
abbrev Result (c : Params := .hardware) := Host.Outcome (State c) Fault Refusal

/-- A framebuffer with every pixel 0, of the geometry the mode selects (R45, R53). -/
def Framebuffer.blank {c : Params} (ext : Bool) : Framebuffer c :=
  if ext then .extended (Vector.replicate c.extHeight (Vector.replicate c.extWidth false))
  else .standard (Vector.replicate c.stdHeight (Vector.replicate c.stdWidth false))

/-- The state after reset for a given mode flag (R53, R270). `draws` is kept by the caller, so that the draws after
a reset are not those before it (log 4). -/
def State.afterReset {c : Params} (modeExt : Bool) (draws : Nat) : State c where
  v           := Vector.replicate c.numV 0
  i           := 0
  pc          := BitVec.ofNat c.pcWidth c.loadAddr
  stack       := []
  dt          := 0
  st          := 0
  mem         := []
  fb          := Framebuffer.blank modeExt
  modeExt     := modeExt
  keys        := Vector.replicate c.numKeys false
  fault       := none
  dfc         := 0
  lastDf      := none
  ran         := false
  refusalMark := false
  draws       := draws

/-- The machine right after its creation and reset, mode_ext false (R53, R54). -/
def State.reset : State := State.afterReset false 0

end Sys2Proof.Machine
end

