-- ==== Sys2Proof/Machine/Ops.lean ====
section
/-! DEFINITION. The shared operations: memory (20_memory.md), fault entry (60_exceptions.md R232, R234), the call stack
(10_state.md R38), the framebuffer (R43), the InputLatch (R46) and the next PC (30_encoding.md R112). -/

namespace Sys2Proof.Machine

variable {c : Params}

/-! ### Memory -/

/-- What a cell that is not listed reads as: the reset image, 0 but for FONT_DATA at FONT_BASE (R53, R72, R270). -/
def unlistedByte (c : Params) (a : Nat) : Byte :=
  if c.fontBase ≤ a then c.fontData.getD (a - c.fontBase) 0 else 0

/-- The interpreter and font area (R72). It is not enforced: no access asks this (R73). -/
def isReserved (c : Params) (a : Nat) : Bool := decide (c.reservedLo ≤ a) && decide (a ≤ c.reservedHi)

/-- The cell at an address (R70). -/
def Memory.read (c : Params) : Memory → Nat → Byte
  | [], a => unlistedByte c a
  | (b, x) :: m, a => if a = b then x else if a < b then unlistedByte c a else Memory.read c m a

/-- List a cell, unless it reads as it would unlisted. -/
def Memory.consCell (c : Params) (a : Nat) (x : Byte) (m : Memory) : Memory :=
  if x = unlistedByte c a then m else (a, x) :: m

/-- Put a byte at an address, keeping the canonical form. -/
def Memory.put (c : Params) : Memory → Nat → Byte → Memory
  | [], a, x => Memory.consCell c a x []
  | (b, y) :: m, a, x =>
    if a < b then Memory.consCell c a x ((b, y) :: m)
    else if a = b then Memory.consCell c a x m
    else (b, y) :: Memory.put c m a x

/-- Write one cell (R75). There is no cell at MEM_SIZE or above; every caller has checked (R82; log 8). -/
def Memory.write (c : Params) (m : Memory) (a : Nat) (x : Byte) : Memory :=
  if a < c.memSize then Memory.put c m a x else m

/-- The canonical form from an address on: strictly rising, inside the capacity, and no cell listed that reads as it
would unlisted. -/
def Memory.wfFrom (c : Params) : Nat → Memory → Bool
  | _, [] => true
  | lo, (a, x) :: m =>
    decide (lo ≤ a) && decide (a < c.memSize) && decide (x ≠ unlistedByte c a) && Memory.wfFrom c (a + 1) m

/-- The canonical form of a memory. -/
def Memory.wf (m : Memory) (c : Params := .hardware) : Bool := Memory.wfFrom c 0 m

/-- The byte at an address, in a state: MemRead(addr, 1) once the check has passed (R74). -/
def State.readByte (s : State c) (a : Nat) : Byte := Memory.read c s.mem a

/-- MemWrite(addr, 1, x) once the check has passed (R75). -/
def State.writeByte (a : Nat) (x : Byte) (s : State c) : State c := { s with mem := Memory.write c s.mem a x }

/-- The bytes at `a`, `a + 1`, ..., `n` of them, lowest address first (R80). -/
def State.readBytes (s : State c) (a n : Nat) : List Byte := (List.range n).map fun k => s.readByte (a + k)

/-! ### Fault entry -/

/-- raise Fault: the fault record and `ran`, and nothing else; PC keeps the address of the faulting instruction (R13,
R234). It is a next state; nothing in the program receives control, and only reset leaves it (R237). -/
def raise (r : FaultRecord) (s : State c) : Result c := .next { s with fault := some r, ran := true }

/-- The record of a stack fault: no address, space Mem (R232). -/
def stackFault (kind : FaultKind) (w : Word) (s : State c) : FaultRecord :=
  { kind := kind, pc := s.pc.setWidth 16, word := w, addr := 0, space := .mem }

/-- The record of an access outside MemoryImage (R232). -/
def memFault (w : Word) (addr : Nat) (s : State c) : FaultRecord :=
  { kind := .outOfBoundsAccess, pc := s.pc.setWidth 16, word := w, addr := BitVec.ofNat 16 addr, space := .mem }

/-- The record of a key index that names no key, above 15 on this hardware (R183, R232, R233). -/
def keyFault (w : Word) (k : BitVec c.vWidth) (s : State c) : FaultRecord :=
  { kind := .outOfBoundsAccess, pc := s.pc.setWidth 16, word := w, addr := k.setWidth 16, space := .key }

/-- The 4-bit code of a fault kind; 0 stands for no fault (R231). -/
def FaultKind.code : FaultKind → BitVec 4
  | .stackOverflow => 1
  | .stackUnderflow => 2
  | .outOfBoundsAccess => 3
  | .misalignedFetch => 4

/-- The 1-bit code of an index space (R50, R232). -/
def Space.code : Space → BitVec 1
  | .mem => 0
  | .key => 1

/-- The kind field the host reads: the code of the latched fault, 0 when there is none (R50, R231). -/
def State.faultCode (s : State c) : BitVec 4 :=
  match s.fault with
  | none => 0
  | some r => r.kind.code

/-- The check of every byte address `a`, ..., `a + n - 1` before any is used, all-or-nothing (R82): the lowest address
outside MemoryImage is the one reported. Addresses do not wrap (R74). -/
def checkMem (w : Word) (a n : Nat) (s : State c) (k : Result c) : Result c :=
  if c.memSize < a + n then raise (memFault w (max a c.memSize) s) s else k

/-- The check of a key index (R183, R184). -/
def checkKey (w : Word) (b : BitVec c.vWidth) (s : State c) (k : Key c → Result c) : Result c :=
  if h : b.toNat < c.numKeys then k ⟨b.toNat, h⟩ else raise (keyFault w b s) s

/-! ### Call stack -/

/-- Push (R38): StackOverflow when the stack is full, otherwise go on with the entry pushed. -/
def pushThen (w : Word) (a : BitVec c.stackEntryWidth) (s : State c) (k : State c → Result c) : Result c :=
  if c.stackDepth ≤ s.stack.length then raise (stackFault .stackOverflow w s) s
  else k { s with stack := s.stack ++ [a] }

/-- Pop (R38): StackUnderflow when the stack is empty, otherwise go on with the entry popped. -/
def popThen (w : Word) (s : State c) (k : BitVec c.stackEntryWidth → State c → Result c) : Result c :=
  match s.stack.getLast? with
  | none => raise (stackFault .stackUnderflow w s) s
  | some a => k a { s with stack := s.stack.dropLast }

/-! ### Framebuffer -/

/-- One pixel of a grid, 0 outside it. -/
def Grid.get {w h : Nat} (g : Grid w h) (x y : Nat) : Bool :=
  if hy : y < h then
    if hx : x < w then g[y][x] else false
  else false

/-- A grid with one pixel replaced; outside the grid there is none to replace. -/
def Grid.set {w h : Nat} (g : Grid w h) (x y : Nat) (p : Bool) : Grid w h :=
  if hy : y < h then
    if hx : x < w then Vector.set g y (Vector.set g[y] x p) else g
  else g

/-- fb.active_ext (R45). -/
def Framebuffer.activeExt : Framebuffer c → Bool
  | .standard _ => false
  | .extended _ => true

/-- W (R45). -/
def Framebuffer.width : Framebuffer c → Nat
  | .standard _ => c.stdWidth
  | .extended _ => c.extWidth

/-- H (R45). -/
def Framebuffer.height : Framebuffer c → Nat
  | .standard _ => c.stdHeight
  | .extended _ => c.extHeight

/-- FB(x, y) read (R43). -/
def Framebuffer.get (fb : Framebuffer c) (x y : Nat) : Bool :=
  match fb with
  | .standard g => Grid.get g x y
  | .extended g => Grid.get g x y

/-- FB(x, y) written (R43). -/
def Framebuffer.set (fb : Framebuffer c) (x y : Nat) (p : Bool) : Framebuffer c :=
  match fb with
  | .standard g => .standard (Grid.set g x y p)
  | .extended g => .extended (Grid.set g x y p)

/-- Every pixel 0, the geometry kept (R130). -/
def Framebuffer.clear (fb : Framebuffer c) : Framebuffer c := Framebuffer.blank fb.activeExt

/-- fb.active_ext of a state (R45). -/
def State.activeExt (s : State c) : Bool := s.fb.activeExt

/-! ### Input latch -/

/-- The lowest-numbered pressed key (R201; spec decision D23). -/
def State.lowestKey (s : State c) : Option (Key c) := (List.finRange c.numKeys).find? fun k => s.keys[k]

/-! ### Next PC -/

/-- PC <- target. -/
def State.setPc (a : BitVec c.pcWidth) (s : State c) : State c := { s with pc := a }

/-- The default advance, PC <- PC + 2 (R112). -/
def State.advance (s : State c) : State c := s.setPc (s.pc + 2)

/-- PC <- PC + 4 where the condition of a skip holds, else PC + 2 (R36, R112). -/
def State.skipIf (cond : Bool) (s : State c) : State c := s.setPc (if cond then s.pc + 4 else s.pc + 2)

end Sys2Proof.Machine
end

