-- ==== Sys2Proof/Machine/Operands.lean ====
section
/-! DEFINITION. The operand forms: V[x], I, the immediates, and the byte digits of a value (00_scope.md R13, 30_encoding.md R103). -/

namespace Sys2Proof.Machine

variable {c : Params}

/-- V[x] read (R13, R31). -/
def State.getV (s : State c) (x : Reg) : BitVec c.vWidth := s.v[x.val]'(x.inV c)

/-- V[x] <- b (R13, R31). -/
def State.setV (x : Reg) (b : BitVec c.vWidth) (s : State c) : State c := { s with v := s.v.set x.val b (x.inV c) }

/-- I <- a (R13, R34). -/
def State.setI (a : BitVec c.iWidth) (s : State c) : State c := { s with i := a }

/-- DT <- b (R13, R41). -/
def State.setDt (b : BitVec c.timerWidth) (s : State c) : State c := { s with dt := b }

/-- ST <- b (R13, R41). -/
def State.setSt (b : BitVec c.timerWidth) (s : State c) : State c := { s with st := b }

/-- Replace the framebuffer. -/
def State.setFb (fb : Framebuffer c) (s : State c) : State c := { s with fb := fb }

/-- I as a memory address, an integer that does not wrap (R34, R74). -/
def State.base (s : State c) : Nat := s.i.toNat

/-- zext_16(nnn), 16 being the width of the register it goes to (R103). -/
def zextNnn {w : Nat} (nnn : BitVec 12) : BitVec w := nnn.setWidth w

/-- A value moved to a register of another width: zero-extended, or cut to its low bits (R12, R13). Between the registers
of this hardware it extends V[x] to 16 bits, and is otherwise between equal widths. -/
def zext {v w : Nat} (b : BitVec v) : BitVec w := b.setWidth w

/-- The address of the font glyph of a value's low nibble (R205). -/
def glyphAddr (c : Params) (b : BitVec c.vWidth) : BitVec c.iWidth :=
  BitVec.ofNat c.iWidth (c.fontBase + c.fontStride * (b.toNat % 16))

/-- The three decimal digits of a value, hundreds first (R206; spec decision D21). -/
def bcdHundreds {w : Nat} (b : BitVec w) : Byte := BitVec.ofNat 8 (b.toNat / 100)

/-- The tens digit (R206). -/
def bcdTens {w : Nat} (b : BitVec w) : Byte := BitVec.ofNat 8 (b.toNat / 10 % 10)

/-- The ones digit (R206). -/
def bcdOnes {w : Nat} (b : BitVec w) : Byte := BitVec.ofNat 8 (b.toNat % 10)

/-- Random8(): the next draw; each execution makes its own (R13, R172; log 4). -/
def State.nextDraw (s : State c) : Byte := c.random8 s.draws

/-- The draw is made. -/
def State.countDraw (s : State c) : State c := { s with draws := s.draws + 1 }

/-- for i in 0 .. n-1: MemWrite(a + i, 1, V[i]) (R207). -/
def State.storeRegs (a : Nat) : Nat → State c → State c
  | 0, s => s
  | n + 1, s =>
    let t := State.storeRegs a n s
    if h : n < 16 then t.writeByte (a + n) (zext (t.getV ⟨n, h⟩)) else t

/-- for i in 0 .. n-1: V[i] <- MemRead(a + i, 1) (R208). -/
def State.loadRegs (a : Nat) : Nat → State c → State c
  | 0, s => s
  | n + 1, s =>
    let t := State.loadRegs a n s
    if h : n < 16 then t.setV ⟨n, h⟩ (zext (t.readByte (a + n))) else t

end Sys2Proof.Machine
end

