-- ==== Sys2Proof/Machine/Flags.lean ====
section
/-! DEFINITION. The flag computations: VF as carry, no-borrow, the bit shifted out, and collision (42_register.md R161, R162; 10_state.md R32). -/

namespace Sys2Proof.Machine

variable {c : Params}

/-- VF. -/
abbrev vf : Reg := 15

/-- A flag as the value VF takes. -/
def flagByte {w : Nat} (f : Bool) : BitVec w := if f then 1 else 0

/-- The sum of two unsigned registers exceeds what one holds, 255 on this hardware (R161). -/
def carryOut {w : Nat} (a b : BitVec w) : Bool := decide (2 ^ w - 1 < a.toNat + b.toNat)

/-- `a - b` makes no borrow (R161). -/
def noBorrow {w : Nat} (a b : BitVec w) : Bool := decide (b.toNat ≤ a.toNat)

/-- The bit a shift right by one drops (R158). -/
def lowBit {w : Nat} (a : BitVec w) : Bool := a.getLsbD 0

/-- The bit a shift left by one drops (R160). -/
def highBit {w : Nat} (a : BitVec w) : Bool := a.getLsbD (w - 1)

/-- The result into V[x], then the flag into VF, which so overwrites the result when x = F (R162). -/
def State.setVFlag (x : Reg) (res : BitVec c.vWidth) (flag : Bool) (s : State c) : State c :=
  (s.setV x res).setV vf (flagByte flag)

end Sys2Proof.Machine
end

