-- ==== Sys2Proof/Machine/Control.lean ====
section
/-! DEFINITION. The control family (40_control.md). -/

namespace Sys2Proof.Machine

variable {c : Params}

/-- 00E0 CLS (R130). -/
def execCls (s : State c) : Result c := .next (s.setFb s.fb.clear).advance

/-- 00EE RET (R131): PC takes the popped value and no increment. -/
def execRet (s : State c) : Result c := popThen (encode .ret) s fun a t => .next (t.setPc (zext a))

/-- 1NNN JP (R132). -/
def execJp (nnn : BitVec 12) (s : State c) : Result c := .next (s.setPc (zextNnn nnn))

/-- 2NNN CALL (R133): pushes PC + 2 (conflict C1). -/
def execCall (nnn : BitVec 12) (s : State c) : Result c :=
  pushThen (encode (.call nnn)) (zext (s.pc + 2)) s fun t => .next (t.setPc (zextNnn nnn))

end Sys2Proof.Machine
end

