-- ==== Sys2Proof/Machine/Draw.lean ====
section
/-! DEFINITION. The draw and input family (44_draw_input.md), and DXY0 in extended mode (46_extended.md R223). -/

namespace Sys2Proof.Machine

variable {c : Params}

/-- What a draw has done so far: the framebuffer and `collide` (R180). -/
abbrev Drawing (c : Params := .hardware) := Framebuffer c × Bool

/-- One sprite bit that is 1: note a pixel that is unset, then XOR it (R44, R180). -/
def drawPixel (px py : Nat) (d : Drawing c) : Drawing c :=
  (d.1.set px py (!d.1.get px py), d.2 || d.1.get px py)

/-- The first `n` bits of a sprite byte, bit 7 leftmost, on row `py` from column `x0`, wrapping at `w` (R180). -/
def drawBits (w x0 py : Nat) (sprite : Byte) : Nat → Drawing c → Drawing c
  | 0, d => d
  | b + 1, d =>
    let e := drawBits w x0 py sprite b d
    if sprite.getLsbD (7 - b) then drawPixel ((x0 + b) % w) py e else e

/-- Sprite bytes as rows `r`, `r + 1`, ..., wrapping at `h` (R180). -/
def drawRows (w h x0 y0 : Nat) : List Byte → Nat → Drawing c → Drawing c
  | [], _, d => d
  | sprite :: rest, r, d => drawRows w h x0 y0 rest (r + 1) (drawBits w x0 ((y0 + r) % h) sprite 8 d)

/-- A whole sprite on a framebuffer, the start reduced mod W and mod H (R180). -/
def drawSprite (fb : Framebuffer c) (vx vy : Nat) (sprite : List Byte) : Drawing c :=
  drawRows fb.width fb.height (vx % fb.width) (vy % fb.height) sprite 0 (fb, false)

/-- DXYN DRW, N from 1 to 15 (R180): the bytes are checked and read first, VF is written last. -/
def execDrw (x y : Reg) (n : Fin 16) (s : State c) : Result c :=
  checkMem (encode (.drw x y n)) s.base n s <|
    let d := drawSprite s.fb (s.getV x).toNat (s.getV y).toNat (s.readBytes s.base n)
    .next ((s.setFb d.1).setV vf (flagByte d.2)).advance

/-- DXY0 DRW0: no effect but the advance in standard mode (R181); the same word is refused in extended mode (R223). -/
def execDrw0 (x y : Reg) (s : State c) : Result c :=
  if s.activeExt then .refused (.extendedOpcode (encode (.drw0 x y))) else .next s.advance

/-- EX9E SKP (R183). -/
def execSkp (x : Reg) (s : State c) : Result c :=
  checkKey (encode (.skp x)) (s.getV x) s fun k => .next (s.skipIf s.keys[k])

/-- EXA1 SKNP (R184). -/
def execSknp (x : Reg) (s : State c) : Result c :=
  checkKey (encode (.sknp x)) (s.getV x) s fun k => .next (s.skipIf (!s.keys[k]))

end Sys2Proof.Machine
end

