-- ==== Sys2Proof/Machine/Index.lean ====
section
/-! DEFINITION. The index, indexed jump and random family (43_index_jump_random.md). -/

namespace Sys2Proof.Machine

variable {c : Params}

/-- ANNN LD I (R170). -/
def execLdI (nnn : BitVec 12) (s : State c) : Result c := .next (s.setI (zextNnn nnn)).advance

/-- BNNN JP V0 (R171): at most 0x10FE, so the sum does not wrap. -/
def execJpV0 (nnn : BitVec 12) (s : State c) : Result c := .next (s.setPc (zextNnn nnn + zext (s.getV 0)))

/-- CXNN RND (R172): one draw for each execution. -/
def execRnd (x : Reg) (nn : Byte) (s : State c) : Result c :=
  .next (s.countDraw.setV x (zext (s.nextDraw &&& nn))).advance

end Sys2Proof.Machine
end

