-- ==== Sys2Proof/Machine/Misc.lean ====
section
/-! DEFINITION. The misc F-family (45_misc_f.md). -/

namespace Sys2Proof.Machine

variable {c : Params}

/-- FX07 LD Vx, DT (R200). -/
def execLdVxDt (x : Reg) (s : State c) : Result c := .next (s.setV x (zext s.dt)).advance

/-- FX0A LD Vx, K (R201): the lowest pressed key, or PC kept while none is pressed. -/
def execLdVxK (x : Reg) (s : State c) : Result c :=
  match s.lowestKey with
  | some k => .next (s.setV x (BitVec.ofNat c.vWidth k.val)).advance
  | none => .next s

/-- FX15 LD DT, Vx (R202). -/
def execLdDtVx (x : Reg) (s : State c) : Result c := .next (s.setDt (zext (s.getV x))).advance

/-- FX18 LD ST, Vx (R203). -/
def execLdStVx (x : Reg) (s : State c) : Result c := .next (s.setSt (zext (s.getV x))).advance

/-- FX1E ADD I, Vx (R204): mod 65536, VF unchanged. -/
def execAddI (x : Reg) (s : State c) : Result c := .next (s.setI (s.i + zext (s.getV x))).advance

/-- FX29 LD F, Vx (R205). -/
def execLdF (x : Reg) (s : State c) : Result c := .next (s.setI (glyphAddr c (s.getV x))).advance

/-- FX33 LD B, Vx (R206). -/
def execLdBcd (x : Reg) (s : State c) : Result c :=
  checkMem (encode (.ldBcd x)) s.base 3 s <|
    let b := s.getV x
    .next (((s.writeByte s.base (bcdHundreds b)).writeByte (s.base + 1) (bcdTens b)).writeByte (s.base + 2)
      (bcdOnes b)).advance

/-- FX55 LD [I], Vx (R207); I is kept. -/
def execLdMemVx (x : Reg) (s : State c) : Result c :=
  checkMem (encode (.ldMemVx x)) s.base (x.val + 1) s (.next (s.storeRegs s.base (x.val + 1)).advance)

/-- FX65 LD Vx, [I] (R208); I is kept. -/
def execLdVxMem (x : Reg) (s : State c) : Result c :=
  checkMem (encode (.ldVxMem x)) s.base (x.val + 1) s (.next (s.loadRegs s.base (x.val + 1)).advance)

end Sys2Proof.Machine
end

