-- ==== Sys2Proof/Machine/Register.lean ====
section
/-! DEFINITION. The register operations family (42_register.md). -/

namespace Sys2Proof.Machine

variable {c : Params}

/-- 6XNN LD (R150). -/
def execLdB (x : Reg) (nn : Byte) (s : State c) : Result c := .next (s.setV x (zext nn)).advance

/-- 7XNN ADD, no flag (R151). -/
def execAddB (x : Reg) (nn : Byte) (s : State c) : Result c := .next (s.setV x (s.getV x + zext nn)).advance

/-- 8XY0 LD (R152). -/
def execLdR (x y : Reg) (s : State c) : Result c := .next (s.setV x (s.getV y)).advance

/-- 8XY1 OR (R153). -/
def execOr (x y : Reg) (s : State c) : Result c := .next (s.setV x (s.getV x ||| s.getV y)).advance

/-- 8XY2 AND (R154). -/
def execAnd (x y : Reg) (s : State c) : Result c := .next (s.setV x (s.getV x &&& s.getV y)).advance

/-- 8XY3 XOR (R155). -/
def execXor (x y : Reg) (s : State c) : Result c := .next (s.setV x (s.getV x ^^^ s.getV y)).advance

/-- 8XY4 ADD with carry (R156). -/
def execAddR (x y : Reg) (s : State c) : Result c :=
  let a := s.getV x
  let b := s.getV y
  .next (s.setVFlag x (a + b) (carryOut a b)).advance

/-- 8XY5 SUB, VF is not-borrow (R157). -/
def execSub (x y : Reg) (s : State c) : Result c :=
  let a := s.getV x
  let b := s.getV y
  .next (s.setVFlag x (a - b) (noBorrow a b)).advance

/-- 8XY6 SHR of V[x]; V[y] is not read (R158). -/
def execShr (x _y : Reg) (s : State c) : Result c :=
  let a := s.getV x
  .next (s.setVFlag x (a >>> 1) (lowBit a)).advance

/-- 8XY7 SUBN, the reverse ordering (R159). -/
def execSubn (x y : Reg) (s : State c) : Result c :=
  let a := s.getV x
  let b := s.getV y
  .next (s.setVFlag x (b - a) (noBorrow b a)).advance

/-- 8XYE SHL of V[x]; V[y] is not read (R160). -/
def execShl (x _y : Reg) (s : State c) : Result c :=
  let a := s.getV x
  .next (s.setVFlag x (a <<< 1) (highBit a)).advance

end Sys2Proof.Machine
end

