-- ==== Sys2Proof/Machine/Skip.lean ====
section
/-! DEFINITION. The conditional skip family (41_skip.md). -/

namespace Sys2Proof.Machine

variable {c : Params}

/-- 3XNN SE (R140). -/
def execSeB (x : Reg) (nn : Byte) (s : State c) : Result c := .next (s.skipIf (s.getV x == zext nn))

/-- 4XNN SNE (R141). -/
def execSneB (x : Reg) (nn : Byte) (s : State c) : Result c := .next (s.skipIf (s.getV x != zext nn))

/-- 5XY0 SE (R142). -/
def execSeR (x y : Reg) (s : State c) : Result c := .next (s.skipIf (s.getV x == s.getV y))

/-- 9XY0 SNE (R143). -/
def execSneR (x y : Reg) (s : State c) : Result c := .next (s.skipIf (s.getV x != s.getV y))

end Sys2Proof.Machine
end

