-- ==== Sys2Proof/Machine/Cycle.lean ====
section
/-! DEFINITION. One `cycle()`: fetch check, fetch, decode, execute (30_encoding.md R104 to R112; 60_exceptions.md R236, R238). -/

namespace Sys2Proof.Machine

variable {c : Params}

/-- EXT_OPCODES: what a word of the extended space does while extended mode is active; `none` is OPEN, refused, the value
of this hardware (R10, R110, R221; spec decision D8). -/
abbrev ExtOpcodes (c : Params) := Option (Word → State c → Result c)

/-- The dispatch for any configuration: the meanings are those of `exec`, which is this at the hardware's configuration
(R10, R52; Laws/Step.lean, execIn_eq). -/
def execIn (i : Instr) (s : State c) : Result c :=
  match i with
  | .cls => execCls s
  | .ret => execRet s
  | .jp nnn => execJp nnn s
  | .call nnn => execCall nnn s
  | .seB x nn => execSeB x nn s
  | .sneB x nn => execSneB x nn s
  | .seR x y => execSeR x y s
  | .ldB x nn => execLdB x nn s
  | .addB x nn => execAddB x nn s
  | .ldR x y => execLdR x y s
  | .or x y => execOr x y s
  | .and x y => execAnd x y s
  | .xor x y => execXor x y s
  | .addR x y => execAddR x y s
  | .sub x y => execSub x y s
  | .shr x y => execShr x y s
  | .subn x y => execSubn x y s
  | .shl x y => execShl x y s
  | .sneR x y => execSneR x y s
  | .ldI nnn => execLdI nnn s
  | .jpV0 nnn => execJpV0 nnn s
  | .rnd x nn => execRnd x nn s
  | .drw x y n => execDrw x y n s
  | .drw0 x y => execDrw0 x y s
  | .skp x => execSkp x s
  | .sknp x => execSknp x s
  | .ldVxDt x => execLdVxDt x s
  | .ldVxK x => execLdVxK x s
  | .ldDtVx x => execLdDtVx x s
  | .ldStVx x => execLdStVx x s
  | .addI x => execAddI x s
  | .ldF x => execLdF x s
  | .ldBcd x => execLdBcd x s
  | .ldMemVx x => execLdMemVx x s
  | .ldVxMem x => execLdVxMem x s

/-- check_fetch(): the fault of a PC that cannot be fetched at, in a configuration (R106, R238). -/
def checkFetch (c : Params) (pc : BitVec c.pcWidth) : Option FaultRecord :=
  if c.oddPcFaults && pc.getLsbD 0 then
    some { kind := .misalignedFetch, pc := pc.setWidth 16, word := 0, addr := pc.setWidth 16, space := .mem }
  else if c.memSize ≤ pc.toNat then
    some { kind := .outOfBoundsAccess, pc := pc.setWidth 16, word := 0, addr := pc.setWidth 16, space := .mem }
  else if c.memSize ≤ pc.toNat + 1 then
    some { kind := .outOfBoundsAccess, pc := pc.setWidth 16, word := 0, addr := BitVec.ofNat 16 (pc.toNat + 1), space := .mem }
  else none

/-- Fetch() once the check has passed: the two bytes at PC, big-endian (R76). -/
def State.fetchWord (s : State c) : Word := wordOfBytes (s.readByte s.pc.toNat) (s.readByte (s.pc.toNat + 1))

/-- DecodeFault(w), the outcome of an Unknown word: counted (saturating), logged, and PC advances (R111). -/
def decodeFault (w : Word) (s : State c) : State c :=
  State.advance
    { s with
      dfc := if s.dfc.toNat < 2 ^ c.dfcWidth - 1 then s.dfc + 1 else s.dfc
      lastDf := some { pc := s.pc.setWidth 16, word := w } }

/-- An extended word in extended mode: what EXT_OPCODES gives it, and refused while that is open (R110, R221). -/
def execExtended (ext : ExtOpcodes c) (w : Word) (s : State c) : Result c :=
  match ext with
  | none => .refused (.extendedOpcode w)
  | some meaning => meaning w s

/-- Decode and execute a fetched word (R105, R107). -/
def execWord (w : Word) (s : State c) (ext : ExtOpcodes c := none) : Result c :=
  match decode w s.activeExt with
  | .instr i => execIn i s
  | .unknown => .next (decodeFault w s)
  | .refusedExt => execExtended ext w s

/-- cycle() of an instance with no latched fault, once `ran` is set (R105). -/
def runCycle (s : State c) (ext : ExtOpcodes c := none) : Result c :=
  match checkFetch c s.pc with
  | some r => raise r s
  | none => execWord s.fetchWord s ext

/-- cycle() in any configuration (R105): no step while a fault is latched (R236), nor once the refusal mark is set
(R240). -/
def cycle (s : State c) (ext : ExtOpcodes c := none) : Result c :=
  match s.fault with
  | some r => .fault (.latched r)
  | none => if s.refusalMark then .refused .refusalMarked else runCycle { s with ran := true } ext

end Sys2Proof.Machine
end

