-- ==== Sys2Proof/Machine/Step.lean ====
section
/-! DEFINITION. The step of the machine, and a state whose next fetch finds a given word. -/

namespace Sys2Proof.Machine

/-- One step is one `cycle()` of this hardware (R104). -/
def step (s : State) : Host.Outcome State Fault Refusal := cycle s

/-- `s` with the table word `w` stored where the next fetch reads, its high byte at PC (R76, R77; log 11). -/
def State.withFetchWord {c : Params} (s : State c) (nbits w : Nat) : State c :=
  (s.writeByte s.pc.toNat (highByte (tableWord nbits w))).writeByte (s.pc.toNat + 1) (lowByte (tableWord nbits w))

end Sys2Proof.Machine
end

