-- ==== Sys2Proof/Machine/HostInterface.lean ====
section
/-! DEFINITION. The host's operations and what the host reads (60_exceptions.md R250 to R256; 70_reset_and_hazards.md R270 to R281). -/

namespace Sys2Proof.Machine

variable {c : Params}

/-- The host's operations (R279). A key outside 0..15 is no move of the host's (R256). -/
inductive HostOp (c : Params := .hardware) where
  | reset
  /-- `none` is an image the host could not read (R272) -/
  | load (image : Option (List Byte))
  | setExtendedMode (b : Bool)
  | cycle
  | tickTimers
  | setKey (k : Key c) (b : Bool)
deriving DecidableEq, Repr

/-- What the host gets back (R279). -/
inductive Reply where
  /-- nothing -/
  | done
  /-- the boolean of `load`; false is LoadError (R272) -/
  | loaded (ok : Bool)
  /-- the fault that the cycle raised, or the latched one again (R104, R236) -/
  | fault (r : FaultRecord)
  /-- the operation has no meaning here (R240, R273) -/
  | refused (r : Refusal)
deriving DecidableEq, Repr

/-- reset(): all state but the mode flag (R270); the draws are not rewound (log 4). -/
def resetOp (s : State c) : State c := State.afterReset s.modeExt s.draws

/-- Copy bytes to consecutive addresses (R274). -/
def copyBytes (a : Nat) : List Byte → State c → State c
  | [], s => s
  | b :: rest, s => copyBytes (a + 1) rest (s.writeByte a b)

/-- Set the refusal mark; the state is otherwise as it is (R240). -/
def markRefused (s : State c) : State c := { s with refusalMark := true }

/-- load(image): refused once a cycle has run (R273; log 10), false for an image too long or unreadable (R272), else
the bytes are copied to LOAD_ADDR (R274). -/
def loadOp (image : Option (List Byte)) (s : State c) : Reply × State c :=
  if s.ran then (.refused .loadAfterRun, markRefused s)
  else
    match image with
    | none => (.loaded false, s)
    | some bytes =>
      if c.maxImage < bytes.length then (.loaded false, s)
      else (.loaded true, copyBytes c.loadAddr bytes s)

/-- set_extended_mode(b): mode_ext and nothing else (R276). -/
def setExtendedModeOp (b : Bool) (s : State c) : State c := { s with modeExt := b }

/-- One counter of tick_timers(): floored at 0 (R250). -/
def tick {w : Nat} (b : BitVec w) : BitVec w := if b = 0 then 0 else b - 1

/-- tick_timers(), in every state (R250). -/
def tickTimersOp (s : State c) : State c := (s.setDt (tick s.dt)).setSt (tick s.st)

/-- set_key(k, b) (R256). -/
def setKeyOp (k : Key c) (b : Bool) (s : State c) : State c := { s with keys := s.keys.set k b }

/-- cycle() as the host sees it: the next state and, when the cycle raised a fault, that fault (R104); the same state
and the latched fault while faulted (R236); a refusal sets the mark and nothing else (R240; log 2). -/
def cycleOp (s : State c) (ext : ExtOpcodes c := none) : Reply × State c :=
  match cycle s ext with
  | .next t =>
    match t.fault with
    | some r => (.fault r, t)
    | none => (.done, t)
  | .fault (.latched r) => (.fault r, s)
  | .refused r => (.refused r, markRefused s)

/-- One host operation, an atomic transaction (R81, R279, R281). -/
def transact (op : HostOp c) (s : State c) (ext : ExtOpcodes c := none) : Reply × State c :=
  match op with
  | .reset => (.done, resetOp s)
  | .load image => loadOp image s
  | .setExtendedMode b => (.done, setExtendedModeOp b s)
  | .cycle => cycleOp s ext
  | .tickTimers => (.done, tickTimersOp s)
  | .setKey k b => (.done, setKeyOp k b s)

/-- The host's calls as one sequence of whole operations (R281, R285). -/
def runOps (ops : List (HostOp c)) (s : State c) (ext : ExtOpcodes c := none) : State c :=
  match ops with
  | [] => s
  | op :: rest => runOps rest (transact op s ext).2 ext

/-- What the read accessors show the host (R255). -/
structure HostView (c : Params := .hardware) where
  width  : Nat
  height : Nat
  /-- the rows from the top, each from the left -/
  pixels : List (List Bool)
  dt     : BitVec c.timerWidth
  st     : BitVec c.timerWidth
  fault  : Option FaultRecord
  dfc    : BitVec c.dfcWidth
  lastDf : Option DecodeFaultRecord
deriving DecidableEq, Repr

/-- The read accessors: they read state and write nothing (R255). -/
def hostView (s : State c) : HostView c where
  width  := s.fb.width
  height := s.fb.height
  pixels := (List.range s.fb.height).map fun y => (List.range s.fb.width).map fun x => s.fb.get x y
  dt     := s.dt
  st     := s.st
  fault  := s.fault
  dfc    := s.dfc
  lastDf := s.lastDf

end Sys2Proof.Machine
end

