-- ==== Sys2Proof/Safety.lean ====
section
/-! DEFINITION. The ends of a run (70_reset_and_hazards.md R286) and what every state of a run satisfies. -/

namespace Sys2Proof.Machine

variable {c : Params}

/-- The state a raised fault leaves: the record and `ran`, and nothing else (R232, R234). -/
def State.faultedWith (s : State c) (kind : FaultKind) (word addr : Word) (space : Space) : State c :=
  { s with fault := some { kind := kind, pc := s.pc.setWidth 16, word := word, addr := addr, space := space }, ran := true }

/-- A 1 bit of the `n` sprite bytes at I falls on pixel (px, py) when the sprite starts at (V[x] mod W, V[y] mod H) and
wraps at the edges; bit 7 is the leftmost column (R180). -/
def State.SpriteCovers (s : State c) (x y : Reg) (n px py : Nat) : Prop :=
  ∃ r b, r < n ∧ b < 8 ∧ (s.readByte (s.i.toNat + r)).getLsbD (7 - b) = true ∧
    px = ((s.getV x).toNat % s.fb.width + b) % s.fb.width ∧ py = ((s.getV y).toNat % s.fb.height + r) % s.fb.height

/-- FAULTED: a fault is latched (R236, R286). -/
def State.Faulted (s : State c) : Prop := s.fault ≠ none

/-- REFUSED: the refusal mark is set (R240, R286). -/
def State.Refused (s : State c) : Prop := s.refusalMark = true

/-- The next cycle can fetch: no latched fault, no refusal mark, and a PC that passes the fetch check (R106, R236). -/
def State.CanFetch (s : State c) : Prop :=
  s.fault = none ∧ s.refusalMark = false ∧ checkFetch c s.pc = none

/-- PARKED: the word at PC is 0x1NNN with NNN = PC, a jump to itself (R286); fetchable, with no fault and no refusal
(log 12). -/
def State.Parked (s : State c) : Prop :=
  s.CanFetch ∧ ∃ nnn, s.fetchWord = encode (.jp nnn) ∧ zextNnn nnn = s.pc

/-- The host keeps the tick cadence: in each second, given as the operations the host makes in it, TIMER_HZ ticks
(R251). A premise that a claim about seconds takes (R285); no rule of the core rests on it. -/
def KeepsCadence (c : Params) (seconds : List (List (HostOp c))) : Prop :=
  ∀ ops ∈ seconds, ops.count .tickTimers = c.timerHz

/-- What the spec bounds in a state that a run reaches. -/
structure State.Inv (s : State) : Prop where
  /-- memory is in its canonical form, inside the capacity (R42) -/
  mem_wf : Memory.wf s.mem = true
  /-- 0 ≤ SP ≤ STACK_DEPTH (R38) -/
  stack_len : s.stack.length ≤ Config.stackDepth
  /-- a pushed value is at most 0x1000 (R133) -/
  stack_entries : ∀ a ∈ s.stack, a.toNat ≤ 0x1000
  /-- PC never exceeds the largest value a cycle can form (R36, R171) -/
  pc_bound : s.pc.toNat ≤ 0x10FE
  /-- last_df is none exactly while no DecodeFault has been counted (R48, R111) -/
  dfc_log : s.dfc = 0 ↔ s.lastDf = none
  /-- a latched fault was raised by a cycle, and PC keeps its address (R49, R234) -/
  fault_pc : ∀ r, s.fault = some r → s.ran = true ∧ r.pc = s.pc
  /-- space is Mem unless the kind is OutOfBoundsAccess (R232) -/
  fault_space : ∀ r, s.fault = some r → r.kind ≠ .outOfBoundsAccess → r.space = .mem

end Sys2Proof.Machine
end

