-- ==== Sys2Proof/Certificates/Slice0/Obligations.lean ====
section
/-! DEFINITION. The statements for the provers, from the numbered rules of spec/. Each says which rule it formalises. Where a
conclusion is `exec i s = .next { s with … }`, every field of State that is not named there is unchanged. Many encodings come from general knowledge,
as the spec marks them, and a spec decision D<n> is the spec's own choice where its source is silent (log 5). -/

open Sys2Proof Sys2Proof.Machine

/-! ### Encoding and decoding -/

/-- Decoding the word of a well-formed instruction gives it back, with every operand, in either mode; DRW0 alone has no
word in extended mode (R107, R223). -/
def Obligations.DecodeEncodeRoundTrip : Prop :=
  ∀ (i : Instr) (ext : Bool), WellFormed i → (ext = true → ∀ x y, i ≠ .drw0 x y) →
    decode (encode i) ext = .instr i

/-- The other direction: a word that decodes to an instruction is that instruction's word, and the instruction is
well-formed, so no two words decode to one instruction. -/
def Obligations.EncodeDecodeRoundTrip : Prop :=
  ∀ (w : Word) (ext : Bool) (i : Instr), decode w ext = .instr i →
    encode i = w ∧ WellFormed i ∧ (ext = true → ∀ x y, i ≠ .drw0 x y)

/-- Words written out from the spec: the source's five examples (R101) and one of each other family (R102, R107). -/
def Obligations.SampleWordsDecode : Prop :=
  decode 0x00E0 false = .instr .cls ∧ decode 0x6005 false = .instr (.ldB 0 0x05) ∧
  decode 0x7003 false = .instr (.addB 0 0x03) ∧ decode 0xA300 false = .instr (.ldI 0x300) ∧
  decode 0xD005 false = .instr (.drw 0 0 5) ∧ decode 0x00EE false = .instr .ret ∧
  decode 0x8127 true = .instr (.subn 1 2) ∧ decode 0xE2A1 true = .instr (.sknp 2) ∧
  decode 0xF265 false = .instr (.ldVxMem 2) ∧ decode 0xD120 false = .instr (.drw0 1 2)

/-- The dispatch table of R107, each of the 65536 words in either mode, in the arithmetic of its nibbles. -/
def Obligations.DispatchTable : Prop :=
  ∀ (w : Word) (ext : Bool) (op n nn : Nat) (x y : Reg) (nnn : BitVec 12),
    w.toNat = 4096 * op + nnn.toNat → nnn.toNat = 256 * x.val + nn → nn = 16 * y.val + n → n < 16 →
    decode w ext =
      if op = 0 then
        if w = 0x00E0 then .instr .cls
        else if w = 0x00EE then .instr .ret
        else if (0x00C0 ≤ w.toNat ∧ w.toNat ≤ 0x00CF) ∨ (0x00FB ≤ w.toNat ∧ w.toNat ≤ 0x00FF) then
          if ext then .refusedExt else .unknown
        else .unknown
      else if op = 1 then .instr (.jp nnn)
      else if op = 2 then .instr (.call nnn)
      else if op = 3 then .instr (.seB x (BitVec.ofNat 8 nn))
      else if op = 4 then .instr (.sneB x (BitVec.ofNat 8 nn))
      else if op = 5 then if n = 0 then .instr (.seR x y) else .unknown
      else if op = 6 then .instr (.ldB x (BitVec.ofNat 8 nn))
      else if op = 7 then .instr (.addB x (BitVec.ofNat 8 nn))
      else if op = 8 then
        if n = 0 then .instr (.ldR x y)
        else if n = 1 then .instr (.or x y)
        else if n = 2 then .instr (.and x y)
        else if n = 3 then .instr (.xor x y)
        else if n = 4 then .instr (.addR x y)
        else if n = 5 then .instr (.sub x y)
        else if n = 6 then .instr (.shr x y)
        else if n = 7 then .instr (.subn x y)
        else if n = 0xE then .instr (.shl x y)
        else .unknown
      else if op = 9 then if n = 0 then .instr (.sneR x y) else .unknown
      else if op = 0xA then .instr (.ldI nnn)
      else if op = 0xB then .instr (.jpV0 nnn)
      else if op = 0xC then .instr (.rnd x (BitVec.ofNat 8 nn))
      else if op = 0xD then
        if n ≠ 0 then .instr (.drw x y (Fin.ofNat 16 n))
        else if ext then .refusedExt else .instr (.drw0 x y)
      else if op = 0xE then
        if nn = 0x9E then .instr (.skp x)
        else if nn = 0xA1 then .instr (.sknp x)
        else .unknown
      else
        if nn = 0x07 then .instr (.ldVxDt x)
        else if nn = 0x0A then .instr (.ldVxK x)
        else if nn = 0x15 then .instr (.ldDtVx x)
        else if nn = 0x18 then .instr (.ldStVx x)
        else if nn = 0x1E then .instr (.addI x)
        else if nn = 0x29 then .instr (.ldF x)
        else if nn = 0x33 then .instr (.ldBcd x)
        else if nn = 0x55 then .instr (.ldMemVx x)
        else if nn = 0x65 then .instr (.ldVxMem x)
        else if nn = 0x30 ∨ nn = 0x75 ∨ nn = 0x85 then if ext then .refusedExt else .unknown
        else .unknown

/-- Exactly these words are Unknown in standard mode (R109). -/
def Obligations.UnknownSpace : Prop :=
  ∀ w : Word, decode w false = .unknown ↔
    (w.toNat / 4096 = 0 ∧ w ≠ 0x00E0 ∧ w ≠ 0x00EE) ∨
    ((w.toNat / 4096 = 5 ∨ w.toNat / 4096 = 9) ∧ w.toNat % 16 ≠ 0) ∨
    (w.toNat / 4096 = 8 ∧ w.toNat % 16 ∈ [0x8, 0x9, 0xA, 0xB, 0xC, 0xD, 0xF]) ∨
    (w.toNat / 4096 = 0xE ∧ w.toNat % 256 ∉ [0x9E, 0xA1]) ∨
    (w.toNat / 4096 = 0xF ∧ w.toNat % 256 ∉ [0x07, 0x0A, 0x15, 0x18, 0x1E, 0x29, 0x33, 0x55, 0x65])

/-- The extended space: exactly these words are refused in extended mode; in standard mode none is, each is Unknown, but
for 0xDXY0, which is the no-op draw (R110; spec decision D8). -/
def Obligations.ExtendedSpace : Prop :=
  ∀ w : Word,
    (decode w true = .refusedExt ↔
      (0x00C0 ≤ w.toNat ∧ w.toNat ≤ 0x00CF) ∨ w.toNat ∈ [0x00FB, 0x00FC, 0x00FD, 0x00FE, 0x00FF] ∨
      (w.toNat / 4096 = 0xD ∧ w.toNat % 16 = 0) ∨
      (w.toNat / 4096 = 0xF ∧ w.toNat % 256 ∈ [0x30, 0x75, 0x85])) ∧
    (decode w true = .refusedExt →
      decode w false = if w.toNat / 4096 = 0xD then
        .instr (.drw0 (Fin.ofNat 16 (w.toNat / 256)) (Fin.ofNat 16 (w.toNat / 16))) else .unknown) ∧
    decode w false ≠ .refusedExt

/-! ### The cycle -/

/-- When the two bytes at an even PC inside memory, high byte first, decode to an instruction in the active mode, a step
is that instruction's meaning with `ran` set; the cycle adds no increment of its own (R76, R105, R112). -/
def Obligations.StepRunsDecodedInstruction : Prop :=
  ∀ (s : State) (i : Instr), s.fault = none → s.refusalMark = false → s.pc.toNat % 2 = 0 → s.pc.toNat < 4096 →
    decode (BitVec.ofNat 16 (256 * (s.readByte s.pc.toNat).toNat + (s.readByte (s.pc.toNat + 1)).toNat))
      s.fb.activeExt = .instr i →
    step s = exec i { s with ran := true }

/-- An Unknown word: counted with saturation, logged, PC advances, nothing else (R111; `ran` by R105). -/
def Obligations.UnknownWordIsDecodeFault : Prop :=
  ∀ s : State, s.CanFetch → decode s.fetchWord s.fb.activeExt = .unknown →
    step s = .next
      { s with
        ran := true
        dfc := BitVec.ofNat 32 (min (s.dfc.toNat + 1) 0xFFFFFFFF)
        lastDf := some { pc := s.pc, word := s.fetchWord }
        pc := s.pc + 2 }

/-- An extended word in extended mode is refused, and the host's cycle sets the refusal mark and nothing else: the state is
otherwise left unchanged (R221, R240; `ran` by R240 and not R105, log 2). -/
def Obligations.RefusedWordSetsMark : Prop :=
  ∀ s : State, s.CanFetch → decode s.fetchWord s.fb.activeExt = .refusedExt →
    step s = .refused (.extendedOpcode s.fetchWord) ∧
    transact .cycle s = (.refused (.extendedOpcode s.fetchWord), { s with refusalMark := true })

/-- The refusal mark stays through every operation of the host but reset, which clears it (R240, R270). That a marked
instance answers every cycle with a refusal, when no fault is latched, is the model's choice (log 3). -/
def Obligations.RefusalMarkStays : Prop :=
  (∀ (op : HostOp) (s : State), s.refusalMark = true →
    ((transact op s).2.refusalMark = false ↔ op = .reset)) ∧
  ∀ s : State, s.refusalMark = true → s.fault = none → step s = .refused .refusalMarked

/-- The fetch check in every configuration (both values of ODD_PC_FAULTS, every MEM_SIZE and PC_WIDTH), that its fault is the
one a cycle enters, and what this hardware's configuration makes of it (R106; spec decision D6). R106 names no PC_WIDTH: that
a PC of another width is checked by its value, and that the record holds its low 16 bits, is the model's reading (log 18). -/
def Obligations.FetchCheckFaults : Prop :=
  (∀ (c : Params) (pc : BitVec c.pcWidth), checkFetch c pc =
    let a := BitVec.ofNat 16 pc.toNat
    if c.oddPcFaults = true ∧ pc.toNat % 2 = 1 then some ⟨.misalignedFetch, a, 0, a, .mem⟩
    else if c.memSize ≤ pc.toNat then some ⟨.outOfBoundsAccess, a, 0, a, .mem⟩
    else if c.memSize ≤ pc.toNat + 1 then some ⟨.outOfBoundsAccess, a, 0, a + 1, .mem⟩
    else none) ∧
  (∀ (c : Params) (ext : ExtOpcodes c) (s : State c) (r : FaultRecord), s.fault = none → s.refusalMark = false →
    checkFetch c s.pc = some r → cycle s ext = .next { s with ran := true, fault := some r }) ∧
  Params.hardware.oddPcFaults = true ∧ Params.hardware.memSize = 4096 ∧ Params.hardware.pcWidth = 16 ∧ ∀ s : State, step s = cycle s none

/-- While a fault is latched, cycle() has no step and reports the fault again, and only reset clears the record (R236; spec decision D14). -/
def Obligations.LatchedFaultHasNoStep : Prop :=
  ∀ (s : State) (r : FaultRecord), s.fault = some r →
    step s = .fault (.latched r) ∧ transact .cycle s = (.fault r, s) ∧
    (∀ op, op ≠ .reset → (transact op s).2.fault = some r) ∧ (transact .reset s).2.fault = none

/-- Fault entry is precise: whatever the word and whatever raised it, a cycle that raises a fault writes the record and
`ran` and nothing else, and the record holds the PC of the faulting instruction, where PC stays (R234; spec decisions D10, D14). -/
def Obligations.FaultEntryIsPrecise : Prop :=
  ∀ (s t : State) (r : FaultRecord), step s = .next t → t.fault = some r →
    t = { s with ran := true, fault := some r } ∧ r.pc = s.pc

/-- Only these instructions raise a fault, each only its own kind (R239, R231). -/
def Obligations.OnlyTheseInstructionsFault : Prop :=
  ∀ (i : Instr) (s t : State) (r : FaultRecord), s.fault = none → exec i s = .next t → t.fault = some r →
    r.word = encode i ∧
    match i with
    | .ret => r.kind = .stackUnderflow ∧ r.space = .mem
    | .call _ => r.kind = .stackOverflow ∧ r.space = .mem
    | .drw _ _ _ | .ldBcd _ | .ldMemVx _ | .ldVxMem _ => r.kind = .outOfBoundsAccess ∧ r.space = .mem
    | .skp _ | .sknp _ => r.kind = .outOfBoundsAccess ∧ r.space = .key
    | _ => False

/-- Every instruction completes or enters its fault: `exec` answers a next state in every state, but for DRW0 in extended
mode, which is refused (R223, R239). -/
def Obligations.EveryInstructionAnswersNext : Prop :=
  ∀ (i : Instr) (s : State),
    (∃ t, exec i s = .next t) ∨
    (∃ x y, i = .drw0 x y ∧ s.fb.activeExt = true ∧ exec i s = .refused (.extendedOpcode (encode i)))

/-- The next PC of a completed instruction (R36, R112). -/
def Obligations.NextPcOfCompletedInstruction : Prop :=
  ∀ (i : Instr) (s t : State), exec i s = .next t → t.fault = none →
    match i with
    | .jp nnn | .call nnn => t.pc.toNat = nnn.toNat
    | .jpV0 nnn => t.pc.toNat = nnn.toNat + (s.getV 0).toNat
    | .ret => s.stack.getLast? = some t.pc
    | .seB _ _ | .sneB _ _ | .seR _ _ | .sneR _ _ | .skp _ | .sknp _ => t.pc = s.pc + 2 ∨ t.pc = s.pc + 4
    | .ldVxK _ => t.pc = s.pc ∨ t.pc = s.pc + 2
    | _ => t.pc = s.pc + 2

/-! ### Invariants -/

/-- Every step keeps the invariant: canonical memory, at most 16 return addresses each at most 0x1000, PC at most 0x10FE,
the DecodeFault log, and a latched fault that names PC (R36, R38, R42, R48, R133, R232, R234). -/
def Obligations.StepKeepsInv : Prop :=
  ∀ s t : State, s.Inv → step s = .next t → t.Inv

/-- The invariant holds after reset. -/
def Obligations.ResetSatisfiesInv : Prop := State.reset.Inv

/-- Every operation of the host keeps the invariant, in every order (R281, R285). -/
def Obligations.HostOperationsKeepInv : Prop :=
  ∀ (ops : List HostOp) (s : State), s.Inv → (runOps ops s).Inv

/-! ### Frames over all instructions -/

/-- The active mode changes only at reset, which copies the mode flag into it (R224; spec decision D13). -/
def Obligations.ActiveModeChangesOnlyAtReset : Prop :=
  (∀ (op : HostOp) (s : State), op ≠ .reset → (transact op s).2.fb.activeExt = s.fb.activeExt) ∧
  ∀ s : State, (transact .reset s).2.fb.activeExt = s.modeExt

/-- No cycle writes the InputLatch or the mode flag: a cycle, a tick and a load leave both, only set_key and reset change
the latch, only set_extended_mode the flag (R45, R46). -/
def Obligations.LatchAndModeFlagAreTheHosts : Prop :=
  ∀ (op : HostOp) (s : State),
    ((∀ k b, op ≠ .setKey k b) → op ≠ .reset → (transact op s).2.keys = s.keys) ∧
    ((∀ b, op ≠ .setExtendedMode b) → (transact op s).2.modeExt = s.modeExt)

/-- Which instructions write which general registers; VF as a flag only by ADD_R, SUB, SHR, SUBN, SHL and DRW (R32, R33). -/
def Obligations.RegisterWriters : Prop :=
  ∀ (i : Instr) (s t : State) (r : Reg), exec i s = .next t → t.getV r ≠ s.getV r →
    match i with
    | .ldB x _ | .addB x _ | .rnd x _ => r = x
    | .ldR x _ | .or x _ | .and x _ | .xor x _ => r = x
    | .addR x _ | .sub x _ | .shr x _ | .subn x _ | .shl x _ => r = x ∨ r = 15
    | .ldVxDt x => r = x
    | .ldVxK x => r = x ∧ ∃ k : Key, s.keys[k] = true
    | .ldVxMem x => r ≤ x
    | .drw _ _ _ => r = 15
    | _ => False

/-- I, DT, ST and the CallStack are written only by the instructions the spec names (R34, R39, R40, R41). -/
def Obligations.IndexTimerStackWriters : Prop :=
  ∀ (i : Instr) (s t : State), exec i s = .next t →
    (t.i ≠ s.i → (∃ nnn, i = .ldI nnn) ∨ (∃ x, i = .addI x) ∨ ∃ x, i = .ldF x) ∧
    (t.dt ≠ s.dt → ∃ x, i = .ldDtVx x ∧ t.dt = s.getV x) ∧
    (t.st ≠ s.st → ∃ x, i = .ldStVx x ∧ t.st = s.getV x) ∧
    (t.stack ≠ s.stack → i = .ret ∨ ∃ nnn, i = .call nnn)

/-- Only CLS and DRW write a pixel, and no instruction the geometry (R43, R220). -/
def Obligations.FramebufferWriters : Prop :=
  ∀ (i : Instr) (s t : State), exec i s = .next t →
    t.fb.width = s.fb.width ∧ t.fb.height = s.fb.height ∧ (t.fb ≠ s.fb → i = .cls ∨ ∃ x y n, i = .drw x y n)

/-- Every byte of memory is unchanged by every instruction, but the bytes LD_BCD and LD_MEM_VX store at I upwards (R80). -/
def Obligations.MemoryWriters : Prop :=
  ∀ (i : Instr) (s t : State) (a : Nat), Memory.wf s.mem = true → exec i s = .next t →
    t.readByte a ≠ s.readByte a →
    match i with
    | .ldBcd _ => s.i.toNat ≤ a ∧ a < s.i.toNat + 3
    | .ldMemVx x => s.i.toNat ≤ a ∧ a < s.i.toNat + (x.val + 1)
    | _ => False

/-- No instruction touches the DecodeFault log, the refusal mark, the latch or the mode flag, or clears a latched fault;
`ran` is only ever set, and draws are counted by RND alone (R46, R48, R49, R240; the draw counter is the model's, log 4). -/
def Obligations.BookkeepingFrame : Prop :=
  ∀ (i : Instr) (s t : State), exec i s = .next t →
    t.dfc = s.dfc ∧ t.lastDf = s.lastDf ∧ t.refusalMark = s.refusalMark ∧ t.keys = s.keys ∧ t.modeExt = s.modeExt ∧
    (s.ran = true → t.ran = true) ∧ (t.ran ≠ s.ran → t.fault ≠ none) ∧ (s.fault ≠ none → t.fault ≠ none) ∧
    (t.draws ≠ s.draws → ∃ x nn, i = .rnd x nn)

/-! ### Control -/

/-- CLS (R130). -/
def Obligations.ClsClearsFramebuffer : Prop :=
  encode .cls = 0x00E0 ∧
  ∀ s : State, ∃ fb, exec .cls s = .next { s with fb := fb, pc := s.pc + 2 } ∧
    fb.activeExt = s.fb.activeExt ∧ ∀ x y, x < fb.width → y < fb.height → fb.get x y = false

/-- RET pops the PC, or underflows (R131; spec decision D4). -/
def Obligations.RetPopsOrUnderflows : Prop :=
  encode .ret = 0x00EE ∧
  (∀ (s : State) (rest : List Addr) (a : Addr), s.stack = rest ++ [a] →
    exec .ret s = .next { s with stack := rest, pc := a }) ∧
  ∀ s : State, s.stack = [] → exec .ret s = .next (s.faultedWith .stackUnderflow 0x00EE 0 .mem)

/-- JP (R132). -/
def Obligations.JpSetsPc : Prop :=
  ∀ (nnn : BitVec 12) (s : State),
    (encode (.jp nnn)).toNat = 0x1000 + nnn.toNat ∧
    exec (.jp nnn) s = .next { s with pc := BitVec.ofNat 16 nnn.toNat }

/-- CALL pushes PC + 2 and jumps, or overflows (R133; spec decision D4). -/
def Obligations.CallPushesOrOverflows : Prop :=
  ∀ (nnn : BitVec 12) (s : State),
    (encode (.call nnn)).toNat = 0x2000 + nnn.toNat ∧
    (s.stack.length < 16 →
      exec (.call nnn) s = .next { s with stack := s.stack ++ [s.pc + 2], pc := BitVec.ofNat 16 nnn.toNat }) ∧
    (s.stack.length = 16 →
      exec (.call nnn) s = .next (s.faultedWith .stackOverflow (BitVec.ofNat 16 (0x2000 + nnn.toNat)) 0 .mem))

/-! ### Conditional skips -/

/-- SE and SNE with a literal (R140, R141). -/
def Obligations.SkipOnLiteral : Prop :=
  ∀ (x : Reg) (nn : Byte) (s : State),
    (encode (.seB x nn)).toNat = 0x3000 + 256 * x.val + nn.toNat ∧
    (encode (.sneB x nn)).toNat = 0x4000 + 256 * x.val + nn.toNat ∧
    exec (.seB x nn) s = .next { s with pc := if s.getV x = nn then s.pc + 4 else s.pc + 2 } ∧
    exec (.sneB x nn) s = .next { s with pc := if s.getV x ≠ nn then s.pc + 4 else s.pc + 2 }

/-- SE and SNE with a register (R142, R143). -/
def Obligations.SkipOnRegister : Prop :=
  ∀ (x y : Reg) (s : State),
    (encode (.seR x y)).toNat = 0x5000 + 256 * x.val + 16 * y.val ∧
    (encode (.sneR x y)).toNat = 0x9000 + 256 * x.val + 16 * y.val ∧
    exec (.seR x y) s = .next { s with pc := if s.getV x = s.getV y then s.pc + 4 else s.pc + 2 } ∧
    exec (.sneR x y) s = .next { s with pc := if s.getV x ≠ s.getV y then s.pc + 4 else s.pc + 2 }

/-! ### Register operations -/

/-- LD and ADD with a literal; ADD wraps mod 256 and has no flag effect (R150, R151). -/
def Obligations.LoadAndAddLiteral : Prop :=
  ∀ (x : Reg) (nn : Byte) (s : State),
    (encode (.ldB x nn)).toNat = 0x6000 + 256 * x.val + nn.toNat ∧
    (encode (.addB x nn)).toNat = 0x7000 + 256 * x.val + nn.toNat ∧
    exec (.ldB x nn) s = .next { s with v := s.v.set x nn, pc := s.pc + 2 } ∧
    exec (.addB x nn) s = .next
      { s with v := s.v.set x (BitVec.ofNat 8 ((s.getV x).toNat + nn.toNat)), pc := s.pc + 2 }

/-- LD, OR, AND, XOR between registers; VF is unchanged unless it is V[x] (R152 to R155; spec decision D17). -/
def Obligations.CopyAndBitwise : Prop :=
  ∀ (x y : Reg) (s : State),
    (encode (.ldR x y)).toNat = 0x8000 + 256 * x.val + 16 * y.val ∧
    (encode (.or x y)).toNat = 0x8001 + 256 * x.val + 16 * y.val ∧
    (encode (.and x y)).toNat = 0x8002 + 256 * x.val + 16 * y.val ∧
    (encode (.xor x y)).toNat = 0x8003 + 256 * x.val + 16 * y.val ∧
    exec (.ldR x y) s = .next { s with v := s.v.set x (s.getV y), pc := s.pc + 2 } ∧
    exec (.or x y) s = .next { s with v := s.v.set x (s.getV x ||| s.getV y), pc := s.pc + 2 } ∧
    exec (.and x y) s = .next { s with v := s.v.set x (s.getV x &&& s.getV y), pc := s.pc + 2 } ∧
    exec (.xor x y) s = .next { s with v := s.v.set x (s.getV x ^^^ s.getV y), pc := s.pc + 2 }

/-- ADD with carry: the sum mod 256 into V[x], then the carry into VF (R156). -/
def Obligations.AddWithCarry : Prop :=
  ∀ (x y : Reg) (s : State),
    (encode (.addR x y)).toNat = 0x8004 + 256 * x.val + 16 * y.val ∧
    exec (.addR x y) s = .next
      { s with
        v := (s.v.set x (BitVec.ofNat 8 ((s.getV x).toNat + (s.getV y).toNat))).set 15
          (if 255 < (s.getV x).toNat + (s.getV y).toNat then 1 else 0)
        pc := s.pc + 2 }

/-- SUB and SUBN: the difference mod 256 into V[x], then not-borrow into VF (R157, R159). -/
def Obligations.SubtractBothOrders : Prop :=
  ∀ (x y : Reg) (s : State),
    (encode (.sub x y)).toNat = 0x8005 + 256 * x.val + 16 * y.val ∧
    (encode (.subn x y)).toNat = 0x8007 + 256 * x.val + 16 * y.val ∧
    exec (.sub x y) s = .next
      { s with
        v := (s.v.set x (BitVec.ofNat 8 (256 + (s.getV x).toNat - (s.getV y).toNat))).set 15
          (if (s.getV y).toNat ≤ (s.getV x).toNat then 1 else 0)
        pc := s.pc + 2 } ∧
    exec (.subn x y) s = .next
      { s with
        v := (s.v.set x (BitVec.ofNat 8 (256 + (s.getV y).toNat - (s.getV x).toNat))).set 15
          (if (s.getV x).toNat ≤ (s.getV y).toNat then 1 else 0)
        pc := s.pc + 2 }

/-- SHR and SHL shift V[x] by one, zero in, the bit shifted out into VF; V[y] is not read (R158, R160; spec decision D18). -/
def Obligations.ShiftByOne : Prop :=
  ∀ (x y : Reg) (s : State),
    (encode (.shr x y)).toNat = 0x8006 + 256 * x.val + 16 * y.val ∧
    (encode (.shl x y)).toNat = 0x800E + 256 * x.val + 16 * y.val ∧
    exec (.shr x y) s = .next
      { s with
        v := (s.v.set x (BitVec.ofNat 8 ((s.getV x).toNat / 2))).set 15
          (BitVec.ofNat 8 ((s.getV x).toNat % 2))
        pc := s.pc + 2 } ∧
    exec (.shl x y) s = .next
      { s with
        v := (s.v.set x (BitVec.ofNat 8 (2 * (s.getV x).toNat))).set 15
          (BitVec.ofNat 8 ((s.getV x).toNat / 128))
        pc := s.pc + 2 }

/-- The arithmetic law for all operand pairs: the results mod 256, the carry exactly when the sum exceeds 255, no borrow
exactly when the minuend is at least the subtrahend, and a literal add with no flag (R161). -/
def Obligations.UnsignedArithmeticLaw : Prop :=
  ∀ (x y : Reg) (s : State), x ≠ 15 →
    (∃ t, exec (.addR x y) s = .next t ∧ (t.getV x).toNat = ((s.getV x).toNat + (s.getV y).toNat) % 256 ∧
      (t.getV 15 = 1 ↔ 255 < (s.getV x).toNat + (s.getV y).toNat) ∧ (t.getV 15 = 0 ∨ t.getV 15 = 1)) ∧
    (∃ t, exec (.sub x y) s = .next t ∧
      ((t.getV x).toNat : Int) = ((s.getV x).toNat - (s.getV y).toNat : Int) % 256 ∧
      (t.getV 15 = 1 ↔ (s.getV y).toNat ≤ (s.getV x).toNat) ∧ (t.getV 15 = 0 ∨ t.getV 15 = 1)) ∧
    (∃ t, exec (.subn x y) s = .next t ∧
      ((t.getV x).toNat : Int) = ((s.getV y).toNat - (s.getV x).toNat : Int) % 256 ∧
      (t.getV 15 = 1 ↔ (s.getV x).toNat ≤ (s.getV y).toNat) ∧ (t.getV 15 = 0 ∨ t.getV 15 = 1)) ∧
    ∀ nn : Byte, ∃ t, exec (.addB x nn) s = .next t ∧ (t.getV x).toNat = ((s.getV x).toNat + nn.toNat) % 256 ∧
      t.getV 15 = s.getV 15

/-- Operand and flag order: with x = F the old VF is the operand and VF ends holding the flag; with y = F the old VF is
the operand (R162; spec decision D19). -/
def Obligations.FlagWrittenLast : Prop :=
  ∀ (y : Reg) (s : State),
    (∃ t, exec (.addR 15 y) s = .next t ∧
      t.getV 15 = if 255 < (s.getV 15).toNat + (s.getV y).toNat then 1 else 0) ∧
    (∃ t, exec (.sub 15 y) s = .next t ∧ t.getV 15 = if (s.getV y).toNat ≤ (s.getV 15).toNat then 1 else 0) ∧
    (∃ t, exec (.shr 15 y) s = .next t ∧ (t.getV 15).toNat = (s.getV 15).toNat % 2) ∧
    (∃ t, exec (.subn 15 y) s = .next t ∧ t.getV 15 = if (s.getV 15).toNat ≤ (s.getV y).toNat then 1 else 0) ∧
    (∃ t, exec (.shl 15 y) s = .next t ∧ (t.getV 15).toNat = (s.getV 15).toNat / 128) ∧
    ∀ x : Reg, x ≠ 15 →
      (∃ t, exec (.addR x 15) s = .next t ∧ (t.getV x).toNat = ((s.getV x).toNat + (s.getV 15).toNat) % 256) ∧
      (∃ t, exec (.sub x 15) s = .next t ∧
        ((t.getV x).toNat : Int) = ((s.getV x).toNat - (s.getV 15).toNat : Int) % 256) ∧
      (∃ t, exec (.subn x 15) s = .next t ∧
        ((t.getV x).toNat : Int) = ((s.getV 15).toNat - (s.getV x).toNat : Int) % 256)

/-! ### Index, indexed jump, random -/

/-- LD I (R170). -/
def Obligations.LdISetsIndex : Prop :=
  ∀ (nnn : BitVec 12) (s : State),
    (encode (.ldI nnn)).toNat = 0xA000 + nnn.toNat ∧
    exec (.ldI nnn) s = .next { s with i := BitVec.ofNat 16 nnn.toNat, pc := s.pc + 2 }

/-- JP V0: the target is NNN plus V0, not reduced (R171; spec decision D15). -/
def Obligations.JpV0AddsV0 : Prop :=
  ∀ (nnn : BitVec 12) (s : State),
    (encode (.jpV0 nnn)).toNat = 0xB000 + nnn.toNat ∧
    ∃ a : Addr, exec (.jpV0 nnn) s = .next { s with pc := a } ∧ a.toNat = nnn.toNat + (s.getV 0).toNat

/-- RND: V[x] becomes some byte masked by NN, so the bits outside the mask are 0; the byte is a free value, and the model's
counter of draws is left open here (R172; spec decision D9). -/
def Obligations.RndMasksADraw : Prop :=
  ∀ (x : Reg) (nn : Byte) (s : State),
    (encode (.rnd x nn)).toNat = 0xC000 + 256 * x.val + nn.toNat ∧
    ∃ (r : Byte) (k : Nat), exec (.rnd x nn) s = .next { s with v := s.v.set x (r &&& nn), draws := k, pc := s.pc + 2 } ∧
      (r &&& nn) &&& ~~~nn = 0

/-! ### Draw and input -/

/-- DRW: with every sprite byte inside memory, each pixel that a 1 bit falls on is flipped and every other one kept, VF is
1 exactly when a flipped pixel was set, and nothing else changes; otherwise the fault, with nothing drawn (R180; spec decisions D10, D25). -/
def Obligations.DrwXorsSprite : Prop :=
  ∀ (x y : Reg) (n : Fin 16) (s : State), n ≠ 0 →
    (encode (.drw x y n)).toNat = 0xD000 + 256 * x.val + 16 * y.val + n.val ∧
    (s.i.toNat + n.val ≤ 4096 →
      ∃ (fb : Framebuffer) (c : Byte),
        exec (.drw x y n) s = .next { s with fb := fb, v := s.v.set 15 c, pc := s.pc + 2 } ∧
        fb.activeExt = s.fb.activeExt ∧
        (∀ px py, s.SpriteCovers x y n px py → fb.get px py = !s.fb.get px py) ∧
        (∀ px py, ¬ s.SpriteCovers x y n px py → fb.get px py = s.fb.get px py) ∧
        (c = 1 ↔ ∃ px py, s.SpriteCovers x y n px py ∧ s.fb.get px py = true) ∧ (c = 0 ∨ c = 1)) ∧
    (4096 < s.i.toNat + n.val →
      exec (.drw x y n) s = .next
        (s.faultedWith .outOfBoundsAccess (encode (.drw x y n)) (BitVec.ofNat 16 (max s.i.toNat 4096)) .mem))

/-- Drawing the same sprite at the same place twice restores the framebuffer, at any position and in either mode (R182's
first sentence). The second draw sets VF exactly when the sprite covers a pixel that was unset before the first: R180's
consequence, where R182's second sentence ("exactly when the sprite has at least one 1 bit") holds only if not every
covered pixel was set (log 13). After a first draw that sets no VF, that sentence holds as it stands. -/
def Obligations.DrawTwiceRestores : Prop :=
  ∀ (x y : Reg) (n : Fin 16) (s : State), x ≠ 15 → y ≠ 15 → n ≠ 0 → s.i.toNat + n.val ≤ 4096 →
    ∃ t u, exec (.drw x y n) s = .next t ∧ exec (.drw x y n) t = .next u ∧ u.fb = s.fb ∧
      (u.getV 15 = 1 ↔ ∃ px py, s.SpriteCovers x y n px py ∧ s.fb.get px py = false) ∧
      (t.getV 15 = 0 → (u.getV 15 = 1 ↔
        ∃ r b, r < n.val ∧ b < 8 ∧ (s.readByte (s.i.toNat + r)).getLsbD b = true))

/-- DRW0: in standard mode nothing but the advance, whatever I is (R181; spec decision D24); in extended mode refused (R223). -/
def Obligations.DrawOfNoRows : Prop :=
  ∀ (x y : Reg) (s : State),
    (encode (.drw0 x y)).toNat = 0xD000 + 256 * x.val + 16 * y.val ∧
    (s.fb.activeExt = false → exec (.drw0 x y) s = .next { s with pc := s.pc + 2 }) ∧
    (s.fb.activeExt = true → exec (.drw0 x y) s = .refused (.extendedOpcode (encode (.drw0 x y))))

/-- SKP and SKNP: the skip by the key that V[x] names, or the fault of an index above 15 (R183, R184; spec decision D22). -/
def Obligations.SkipOnKey : Prop :=
  ∀ (x : Reg) (s : State),
    (encode (.skp x)).toNat = 0xE09E + 256 * x.val ∧ (encode (.sknp x)).toNat = 0xE0A1 + 256 * x.val ∧
    (∀ k : Key, k.val = (s.getV x).toNat →
      exec (.skp x) s = .next { s with pc := if s.keys[k] = true then s.pc + 4 else s.pc + 2 } ∧
      exec (.sknp x) s = .next { s with pc := if s.keys[k] = false then s.pc + 4 else s.pc + 2 }) ∧
    (15 < (s.getV x).toNat →
      exec (.skp x) s = .next
        (s.faultedWith .outOfBoundsAccess (encode (.skp x)) (BitVec.ofNat 16 (s.getV x).toNat) .key) ∧
      exec (.sknp x) s = .next
        (s.faultedWith .outOfBoundsAccess (encode (.sknp x)) (BitVec.ofNat 16 (s.getV x).toNat) .key))

/-! ### Misc -/

/-- The timer moves (R200, R202, R203). -/
def Obligations.TimerMoves : Prop :=
  ∀ (x : Reg) (s : State),
    (encode (.ldVxDt x)).toNat = 0xF007 + 256 * x.val ∧ (encode (.ldDtVx x)).toNat = 0xF015 + 256 * x.val ∧
    (encode (.ldStVx x)).toNat = 0xF018 + 256 * x.val ∧
    exec (.ldVxDt x) s = .next { s with v := s.v.set x s.dt, pc := s.pc + 2 } ∧
    exec (.ldDtVx x) s = .next { s with dt := s.getV x, pc := s.pc + 2 } ∧
    exec (.ldStVx x) s = .next { s with st := s.getV x, pc := s.pc + 2 }

/-- LD Vx, K: no effect at all while no key is pressed; with the lowest pressed key k, V[x] becomes k (R201; spec decision D23). -/
def Obligations.WaitForKey : Prop :=
  ∀ (x : Reg) (s : State),
    (encode (.ldVxK x)).toNat = 0xF00A + 256 * x.val ∧
    ((∀ k : Key, s.keys[k] = false) → exec (.ldVxK x) s = .next s) ∧
    ∀ k : Key, s.keys[k] = true → (∀ j : Key, j < k → s.keys[j] = false) →
      exec (.ldVxK x) s = .next { s with v := s.v.set x (BitVec.ofNat 8 k.val), pc := s.pc + 2 }

/-- ADD I, Vx and LD F, Vx (R204, R205; spec decisions D5, D15, D16). -/
def Obligations.IndexArithmetic : Prop :=
  ∀ (x : Reg) (s : State),
    (encode (.addI x)).toNat = 0xF01E + 256 * x.val ∧ (encode (.ldF x)).toNat = 0xF029 + 256 * x.val ∧
    exec (.addI x) s = .next { s with i := BitVec.ofNat 16 (s.i.toNat + (s.getV x).toNat), pc := s.pc + 2 } ∧
    exec (.ldF x) s = .next { s with i := BitVec.ofNat 16 (5 * ((s.getV x).toNat % 16)), pc := s.pc + 2 }

/-- LD B, Vx: three digits, each at most 9, of V[x], hundreds first, at I, I + 1, I + 2; every other byte and everything
else as before; or the fault, with nothing written (R206; spec decisions D10, D21). -/
def Obligations.BcdDigits : Prop :=
  ∀ (x : Reg) (s : State), Memory.wf s.mem = true →
    (encode (.ldBcd x)).toNat = 0xF033 + 256 * x.val ∧
    (s.i.toNat + 2 < 4096 →
      ∃ t, exec (.ldBcd x) s = .next t ∧ t = { s with mem := t.mem, pc := s.pc + 2 } ∧
        (s.getV x).toNat = 100 * (t.readByte s.i.toNat).toNat + 10 * (t.readByte (s.i.toNat + 1)).toNat +
          (t.readByte (s.i.toNat + 2)).toNat ∧
        (t.readByte (s.i.toNat + 1)).toNat ≤ 9 ∧ (t.readByte (s.i.toNat + 2)).toNat ≤ 9 ∧
        ∀ a, a < s.i.toNat ∨ s.i.toNat + 2 < a → t.readByte a = s.readByte a) ∧
    (4096 ≤ s.i.toNat + 2 →
      exec (.ldBcd x) s = .next
        (s.faultedWith .outOfBoundsAccess (encode (.ldBcd x)) (BitVec.ofNat 16 (max s.i.toNat 4096)) .mem))

/-- LD [I], Vx: V0..V[x] at I upwards; every other byte and everything else, I too, as before; or the fault, with nothing
written (R207; spec decisions D10, D20). -/
def Obligations.RegistersStored : Prop :=
  ∀ (x : Reg) (s : State), Memory.wf s.mem = true →
    (encode (.ldMemVx x)).toNat = 0xF055 + 256 * x.val ∧
    (s.i.toNat + x.val < 4096 →
      ∃ t, exec (.ldMemVx x) s = .next t ∧ t = { s with mem := t.mem, pc := s.pc + 2 } ∧
        (∀ k : Reg, k ≤ x → t.readByte (s.i.toNat + k.val) = s.getV k) ∧
        ∀ a, a < s.i.toNat ∨ s.i.toNat + x.val < a → t.readByte a = s.readByte a) ∧
    (4096 ≤ s.i.toNat + x.val →
      exec (.ldMemVx x) s = .next
        (s.faultedWith .outOfBoundsAccess (encode (.ldMemVx x)) (BitVec.ofNat 16 (max s.i.toNat 4096)) .mem))

/-- LD Vx, [I]: V0..V[x] from I upwards; every other register and everything else, I too, as before; or the fault, with
no register written (R208; spec decisions D10, D20). -/
def Obligations.RegistersLoaded : Prop :=
  ∀ (x : Reg) (s : State),
    (encode (.ldVxMem x)).toNat = 0xF065 + 256 * x.val ∧
    (s.i.toNat + x.val < 4096 →
      ∃ t, exec (.ldVxMem x) s = .next t ∧ t = { s with v := t.v, pc := s.pc + 2 } ∧
        ∀ k : Reg, t.getV k = if k ≤ x then s.readByte (s.i.toNat + k.val) else s.getV k) ∧
    (4096 ≤ s.i.toNat + x.val →
      exec (.ldVxMem x) s = .next
        (s.faultedWith .outOfBoundsAccess (encode (.ldVxMem x)) (BitVec.ofNat 16 (max s.i.toNat 4096)) .mem))

/-! ### The host's operations -/

/-- reset(): every component at its reset value, the mode flag kept, whatever the state (R270). -/
def Obligations.ResetReinitialises : Prop :=
  ∀ s : State, ∃ t, transact .reset s = (.done, t) ∧
    (∀ x, t.getV x = 0) ∧ t.i = 0 ∧ t.pc = 0x200 ∧ t.stack = [] ∧ t.dt = 0 ∧ t.st = 0 ∧
    (∀ a, a < 4096 → t.readByte a = if h : a < Config.fontData.length then Config.fontData[a] else 0) ∧
    t.fb.activeExt = s.modeExt ∧ (∀ x y, x < t.fb.width → y < t.fb.height → t.fb.get x y = false) ∧
    t.modeExt = s.modeExt ∧ (∀ k : Key, t.keys[k] = false) ∧ t.fault = none ∧ t.dfc = 0 ∧ t.lastDf = none ∧
    t.ran = false ∧ t.refusalMark = false

/-- A new instance is in the state of reset with the mode flag false: standard mode, 64 by 32, all pixels 0 (R54). -/
def Obligations.CreationIsReset : Prop :=
  State.reset.modeExt = false ∧ (transact .reset State.reset).2 = State.reset ∧
  State.reset.fb.width = 64 ∧ State.reset.fb.height = 32 ∧
  ∀ s : State, s.modeExt = false → { (transact .reset s).2 with draws := State.reset.draws } = State.reset

/-- The 80 bytes of the font at 0x000, and zero after them (R78, R72). -/
def Obligations.FontAfterReset : Prop :=
  State.reset.readBytes 0 80 =
    [0xF0, 0x90, 0x90, 0x90, 0xF0, 0x20, 0x60, 0x20, 0x20, 0x70, 0xF0, 0x10, 0xF0, 0x80, 0xF0, 0xF0, 0x10, 0xF0, 0x10, 0xF0,
     0x90, 0x90, 0xF0, 0x10, 0x10, 0xF0, 0x80, 0xF0, 0x10, 0xF0, 0xF0, 0x80, 0xF0, 0x90, 0xF0, 0xF0, 0x10, 0x20, 0x40, 0x40,
     0xF0, 0x90, 0xF0, 0x90, 0xF0, 0xF0, 0x90, 0xF0, 0x10, 0xF0, 0xF0, 0x90, 0xF0, 0x90, 0x90, 0xE0, 0x90, 0xE0, 0x90, 0xE0,
     0xF0, 0x80, 0x80, 0x80, 0xF0, 0xE0, 0x90, 0x90, 0x90, 0xE0, 0xF0, 0x80, 0xF0, 0x80, 0xF0, 0xF0, 0x80, 0xF0, 0x80, 0x80] ∧
  ∀ a, 80 ≤ a → State.reset.readByte a = 0

/-- load(image): refused once a cycle has run; false and no change for an image too long or unreadable; else the bytes at
0x200 upwards and nothing else (R272, R273, R274). -/
def Obligations.LoadCopiesImage : Prop :=
  (∀ (image : Option (List Byte)) (s : State), s.ran = true →
    (transact (.load image) s).1 = .refused .loadAfterRun) ∧
  (∀ s : State, s.ran = false → transact (.load none) s = (.loaded false, s)) ∧
  (∀ (bytes : List Byte) (s : State), s.ran = false → 3584 < bytes.length →
    transact (.load (some bytes)) s = (.loaded false, s)) ∧
  ∀ (bytes : List Byte) (s : State), Memory.wf s.mem = true → s.ran = false → bytes.length ≤ 3584 →
    ∃ t, transact (.load (some bytes)) s = (.loaded true, t) ∧ t = { s with mem := t.mem } ∧
      (∀ (k : Nat) (h : k < bytes.length), t.readByte (0x200 + k) = bytes[k]) ∧
      ∀ a, a < 0x200 ∨ 0x200 + bytes.length ≤ a → t.readByte a = s.readByte a

/-- tick_timers(): one tick, and N of them, take each timer down to 0 and no further, and change nothing else, in every
state (R250). -/
def Obligations.TicksCountDown : Prop :=
  ∀ (n : Nat) (s : State), runOps (List.replicate n .tickTimers) s =
    { s with dt := BitVec.ofNat 8 (s.dt.toNat - n), st := BitVec.ofNat 8 (s.st.toNat - n) }

/-- set_key and set_extended_mode write their one bit and nothing else, in every state (R256, R276). -/
def Obligations.HostWritesOneBit : Prop :=
  (∀ (k : Key) (b : Bool) (s : State), transact (.setKey k b) s = (.done, { s with keys := s.keys.set k b })) ∧
  ∀ (b : Bool) (s : State), transact (.setExtendedMode b) s = (.done, { s with modeExt := b })

/-- A parked instance: each cycle re-executes the jump and changes nothing but `ran`, so it stays parked for ever (R132,
R286; PARKED is read as fetchable, log 12). -/
def Obligations.ParkedIsFixedPoint : Prop :=
  ∀ (s : State) (n : Nat), s.Parked →
    (runOps (List.replicate n .cycle) s).Parked ∧ runOps (List.replicate (n + 1) .cycle) s = { s with ran := true }

/-- A store is seen by the next fetch: registers stored over the next instruction are the next word fetched (R87). -/
def Obligations.StoreSeenByNextFetch : Prop :=
  ∀ (x : Reg) (s : State), Memory.wf s.mem = true → s.i = s.pc + 2 → 1 ≤ x.val → s.i.toNat + x.val < 4096 →
    ∃ t, exec (.ldMemVx x) s = .next t ∧ t.fetchWord.toNat = 256 * (s.getV 0).toNat + (s.getV 1).toNat
end

