-- ==== Sys2Proof/Laws/Config.lean ====
section
/-! SUPPORT. The arithmetic the spec checks on the parameters (00_scope.md R5, R10; 20_memory.md R72). The values themselves
need no lemma: `Params.hardware` and the names of Config unfold to numerals under simp. -/

namespace Sys2Proof

@[simp] theorem Params.hardware_maxImage : Params.hardware.maxImage = 3584 := rfl

/-- The program area begins where the reserved one ends (R72). -/
theorem Params.loadAddr_after_reserved : Params.hardware.loadAddr = Params.hardware.reservedHi + 1 := rfl

/-- MAX_IMAGE is what MEM_SIZE leaves above LOAD_ADDR (R5, R10). -/
theorem Params.maxImage_eq (c : Params) : c.maxImage = c.memSize - c.loadAddr := rfl

/-- The font has FONT_STRIDE bytes for each of 16 glyphs (R72, R78). -/
theorem Params.fontData_length : Params.hardware.fontData.length = 16 * Params.hardware.fontStride := rfl

end Sys2Proof
end

