-- ==== Sys2Proof/Laws/Decode.lean ====
section
/-! SUPPORT. Words and fields as numbers: what each field of a word is, what an encoded word is, and a word put together
again from its fields (30_encoding.md R101, R102). -/

namespace Sys2Proof

/-! ### Nibbles -/

@[simp] theorem ofNibble_toNibble (x : Fin 16) : ofNibble (toNibble x) = x := by
  ext
  simp [ofNibble, toNibble]

@[simp] theorem toNibble_ofNibble (b : BitVec 4) : toNibble (ofNibble b) = b := by
  simp [ofNibble, toNibble]

@[simp] theorem toNat_toNibble (x : Fin 16) : (toNibble x).toNat = x.val := by
  simp [toNibble]

@[simp] theorem val_ofNibble (b : BitVec 4) : (ofNibble b).val = b.toNat := rfl

theorem toNibble_ne_zero {n : Fin 16} (h : n ≠ 0) : toNibble n ≠ 0#4 := by
  intro hn
  exact h (by rw [← ofNibble_toNibble n, hn]; rfl)

theorem ofNibble_ne_zero {b : BitVec 4} (h : b ≠ 0#4) : ofNibble b ≠ 0 := by
  intro hb
  exact h (by rw [← toNibble_ofNibble b, hb]; rfl)

/-! ### Fields and words as numbers -/

section asNumbers
variable (w : Word) (op n : BitVec 4) (nnn : BitVec 12) (x y : Reg) (nn hi lo : Byte)

theorem toNat_fieldOp : (fieldOp w).toNat = w.toNat / 4096 := by
  have := w.isLt
  simp only [fieldOp, BitVec.extractLsb'_toNat, Nat.shiftRight_eq_div_pow]
  omega

theorem toNat_fieldX : (fieldX w).toNat = w.toNat / 256 % 16 := by
  simp [fieldX, Nat.shiftRight_eq_div_pow]

theorem toNat_fieldY : (fieldY w).toNat = w.toNat / 16 % 16 := by
  simp [fieldY, Nat.shiftRight_eq_div_pow]

theorem toNat_fieldN : (fieldN w).toNat = w.toNat % 16 := by
  simp [fieldN]

theorem toNat_fieldNn : (fieldNn w).toNat = w.toNat % 256 := by
  simp [fieldNn]

theorem toNat_fieldNnn : (fieldNnn w).toNat = w.toNat % 4096 := by
  simp [fieldNnn]

theorem toNat_append {a b : Nat} (u : BitVec a) (v : BitVec b) : (u ++ v).toNat = u.toNat * 2 ^ b + v.toNat := by
  rw [BitVec.toNat_append, ← Nat.shiftLeft_add_eq_or_of_lt v.isLt, Nat.shiftLeft_eq]

theorem toNat_encA : (encA op nnn).toNat = 4096 * op.toNat + nnn.toNat :=
  (toNat_append op nnn).trans (by omega)

theorem toNat_encXB : (encXB op x nn).toNat = 4096 * op.toNat + 256 * x.val + nn.toNat :=
  (toNat_append (op ++ toNibble x) nn).trans (by rw [toNat_append, toNat_toNibble]; omega)

theorem toNat_encXY : (encXY op x y n).toNat = 4096 * op.toNat + 256 * x.val + 16 * y.val + n.toNat :=
  (toNat_append (op ++ toNibble x ++ toNibble y) n).trans (by
    rw [toNat_append, toNat_append, toNat_toNibble, toNat_toNibble]
    omega)

theorem toNat_wordOfBytes : (wordOfBytes hi lo).toNat = 256 * hi.toNat + lo.toNat :=
  (toNat_append hi lo).trans (by omega)

/-! ### The fields of an encoded word -/

@[simp] theorem fieldOp_encA : fieldOp (encA op nnn) = op := by
  apply BitVec.eq_of_toNat_eq
  have := nnn.isLt
  rw [toNat_fieldOp, toNat_encA]
  omega

@[simp] theorem fieldNnn_encA : fieldNnn (encA op nnn) = nnn := by
  apply BitVec.eq_of_toNat_eq
  have := nnn.isLt
  rw [toNat_fieldNnn, toNat_encA]
  omega

@[simp] theorem fieldOp_encXB : fieldOp (encXB op x nn) = op := by
  apply BitVec.eq_of_toNat_eq
  have := nn.isLt
  have := x.isLt
  rw [toNat_fieldOp, toNat_encXB]
  omega

@[simp] theorem fieldX_encXB : fieldX (encXB op x nn) = toNibble x := by
  apply BitVec.eq_of_toNat_eq
  have := nn.isLt
  have := x.isLt
  rw [toNat_fieldX, toNat_encXB, toNat_toNibble]
  omega

@[simp] theorem fieldNn_encXB : fieldNn (encXB op x nn) = nn := by
  apply BitVec.eq_of_toNat_eq
  have := nn.isLt
  rw [toNat_fieldNn, toNat_encXB]
  omega

@[simp] theorem fieldOp_encXY : fieldOp (encXY op x y n) = op := by
  apply BitVec.eq_of_toNat_eq
  have := n.isLt
  have := x.isLt
  have := y.isLt
  rw [toNat_fieldOp, toNat_encXY]
  omega

@[simp] theorem fieldX_encXY : fieldX (encXY op x y n) = toNibble x := by
  apply BitVec.eq_of_toNat_eq
  have := n.isLt
  have := x.isLt
  have := y.isLt
  rw [toNat_fieldX, toNat_encXY, toNat_toNibble]
  omega

@[simp] theorem fieldY_encXY : fieldY (encXY op x y n) = toNibble y := by
  apply BitVec.eq_of_toNat_eq
  have := n.isLt
  have := x.isLt
  have := y.isLt
  rw [toNat_fieldY, toNat_encXY, toNat_toNibble]
  omega

@[simp] theorem fieldN_encXY : fieldN (encXY op x y n) = n := by
  apply BitVec.eq_of_toNat_eq
  have := n.isLt
  rw [toNat_fieldN, toNat_encXY]
  omega

/-! ### A word from its fields -/

@[simp] theorem encA_fields : encA (fieldOp w) (fieldNnn w) = w := by
  apply BitVec.eq_of_toNat_eq
  rw [toNat_encA, toNat_fieldOp, toNat_fieldNnn]
  omega

@[simp] theorem encXB_fields : encXB (fieldOp w) (ofNibble (fieldX w)) (fieldNn w) = w := by
  apply BitVec.eq_of_toNat_eq
  rw [toNat_encXB, toNat_fieldOp, val_ofNibble, toNat_fieldX, toNat_fieldNn]
  omega

@[simp] theorem encXY_fields : encXY (fieldOp w) (ofNibble (fieldX w)) (ofNibble (fieldY w)) (fieldN w) = w := by
  apply BitVec.eq_of_toNat_eq
  rw [toNat_encXY, toNat_fieldOp, val_ofNibble, val_ofNibble, toNat_fieldX, toNat_fieldY, toNat_fieldN]
  omega

@[simp] theorem wordOfBytes_bytes : wordOfBytes (highByte w) (lowByte w) = w := by
  apply BitVec.eq_of_toNat_eq
  have := w.isLt
  rw [toNat_wordOfBytes]
  simp only [highByte, lowByte, BitVec.extractLsb'_toNat, Nat.shiftRight_eq_div_pow]
  omega

end asNumbers

end Sys2Proof
end

