-- ==== Sys2Proof/Laws/Framebuffer.lean ====
section
/-! SUPPORT. The laws of the framebuffer: a pixel after a write, the geometry that every write keeps, and equality by pixels. -/

namespace Sys2Proof.Machine

variable {c : Params}

theorem Grid.get_set {w h : Nat} (g : Grid w h) {x y : Nat} (x' y' : Nat) (p : Bool) (hx : x < w) (hy : y < h) :
    Grid.get (Grid.set g x y p) x' y' = if x' = x ∧ y' = y then p else Grid.get g x' y' := by
  unfold Grid.get Grid.set
  simp only [dif_pos hx, dif_pos hy]
  by_cases hy' : y' < h <;> by_cases hx' : x' < w <;> simp only [dif_pos, dif_neg, hy', hx', not_false_iff]
  · by_cases hyy : y = y'
    · subst hyy
      by_cases hxx : x = x'
      · simp [hxx]
      · simp [hxx, Ne.symm hxx]
    · simp [hyy, Ne.symm hyy]
  · split
    · omega
    · rfl
  · split
    · omega
    · rfl
  · split
    · omega
    · rfl

theorem Grid.eq_of_get {w h : Nat} {g g' : Grid w h} (hg : ∀ x y, x < w → y < h → Grid.get g x y = Grid.get g' x y) :
    g = g' := by
  apply Vector.ext
  intro y hy
  apply Vector.ext
  intro x hx
  have := hg x y hx hy
  simpa only [Grid.get, dif_pos hx, dif_pos hy] using this

@[simp] theorem Framebuffer.width_set (fb : Framebuffer c) (x y : Nat) (p : Bool) : (fb.set x y p).width = fb.width := by
  cases fb <;> rfl

@[simp] theorem Framebuffer.height_set (fb : Framebuffer c) (x y : Nat) (p : Bool) : (fb.set x y p).height = fb.height := by
  cases fb <;> rfl

@[simp] theorem Framebuffer.activeExt_set (fb : Framebuffer c) (x y : Nat) (p : Bool) :
    (fb.set x y p).activeExt = fb.activeExt := by
  cases fb <;> rfl

theorem Framebuffer.get_set (fb : Framebuffer c) {x y : Nat} (x' y' : Nat) (p : Bool) (hx : x < fb.width)
    (hy : y < fb.height) : (fb.set x y p).get x' y' = if x' = x ∧ y' = y then p else fb.get x' y' := by
  cases fb with
  | standard g => exact Grid.get_set g x' y' p hx hy
  | extended g => exact Grid.get_set g x' y' p hx hy

/-- Framebuffers of one mode with equal pixels are equal data. -/
theorem Framebuffer.eq_of_get {fb fb' : Framebuffer c} (hm : fb.activeExt = fb'.activeExt)
    (hg : ∀ x y, x < fb.width → y < fb.height → fb.get x y = fb'.get x y) : fb = fb' := by
  cases fb <;> cases fb' <;> first | exact congrArg _ (Grid.eq_of_get hg) | cases hm

@[simp] theorem Framebuffer.activeExt_blank (ext : Bool) : (Framebuffer.blank (c := c) ext).activeExt = ext := by
  cases ext <;> rfl

theorem Grid.get_replicate (w h x y : Nat) :
    Grid.get (Vector.replicate h (Vector.replicate w false)) x y = false := by
  unfold Grid.get
  split
  · split
    · simp
    · rfl
  · rfl

@[simp] theorem Framebuffer.get_blank (ext : Bool) (x y : Nat) : (Framebuffer.blank (c := c) ext).get x y = false := by
  cases ext <;> exact Grid.get_replicate _ _ x y

/-- The width is the active mode's (R45). -/
theorem Framebuffer.width_eq (fb : Framebuffer c) : fb.width = if fb.activeExt then c.extWidth else c.stdWidth := by
  cases fb <;> rfl

/-- The height is the active mode's (R45). -/
theorem Framebuffer.height_eq (fb : Framebuffer c) : fb.height = if fb.activeExt then c.extHeight else c.stdHeight := by
  cases fb <;> rfl

end Sys2Proof.Machine
end

