-- ==== Sys2Proof/Laws/Draw.lean ====
section
/-! SUPPORT. What a sprite draw does to each pixel, said once: it flips exactly the pixels that a 1 bit falls on, each
once, and `collide` says whether one of them was set (R180, R182). -/

namespace Sys2Proof.Machine

/-- The widths a framebuffer can have. -/
theorem Framebuffer.width_cases (fb : Framebuffer) : fb.width = 64 ∨ fb.width = 128 := by
  cases fb
  · exact .inl rfl
  · exact .inr rfl

theorem Framebuffer.height_cases (fb : Framebuffer) : fb.height = 32 ∨ fb.height = 64 := by
  cases fb
  · exact .inl rfl
  · exact .inr rfl

/-- Columns of one sprite row do not meet (8 ≤ W). -/
theorem col_inj {w x0 b b' : Nat} (hw : w = 64 ∨ w = 128) (hb : b < 8) (hb' : b' < 8)
    (h : (x0 + b) % w = (x0 + b') % w) : b = b' := by
  rcases hw with rfl | rfl <;> omega

/-- Rows of one sprite do not meet (15 < H). -/
theorem row_inj {h y0 r r' : Nat} (hh : h = 32 ∨ h = 64) (hr : r < 16) (hr' : r' < 16)
    (e : (y0 + r) % h = (y0 + r') % h) : r = r' := by
  rcases hh with rfl | rfl <;> omega

/-- A 1 among the first `n` bits of a sprite byte falls on column `px`. -/
def RowCovers (w x0 : Nat) (sprite : Byte) (n px : Nat) : Prop :=
  ∃ b, b < n ∧ sprite.getLsbD (7 - b) = true ∧ px = (x0 + b) % w

/-- A 1 bit of the sprite bytes, drawn as rows `r`, `r + 1`, ..., falls on (px, py). -/
def ListCovers (w h x0 y0 : Nat) (sprite : List Byte) (r px py : Nat) : Prop :=
  ∃ k, ∃ hk : k < sprite.length, RowCovers w x0 sprite[k] 8 px ∧ py = (y0 + (r + k)) % h

theorem rowCovers_succ {w x0 : Nat} {sprite : Byte} {n px : Nat} :
    RowCovers w x0 sprite (n + 1) px ↔
      RowCovers w x0 sprite n px ∨ (sprite.getLsbD (7 - n) = true ∧ px = (x0 + n) % w) := by
  constructor
  · rintro ⟨b, hb, h⟩
    rcases Nat.lt_succ_iff_lt_or_eq.1 hb with hlt | rfl
    · exact .inl ⟨b, hlt, h⟩
    · exact .inr h
  · rintro (⟨b, hb, h⟩ | h)
    · exact ⟨b, by omega, h⟩
    · exact ⟨n, by omega, h⟩

theorem listCovers_cons {w h x0 y0 : Nat} {sp : Byte} {rest : List Byte} {r px py : Nat} :
    ListCovers w h x0 y0 (sp :: rest) r px py ↔
      (RowCovers w x0 sp 8 px ∧ py = (y0 + r) % h) ∨ ListCovers w h x0 y0 rest (r + 1) px py := by
  constructor
  · rintro ⟨k, hk, hc, hy⟩
    cases k with
    | zero => exact .inl ⟨hc, hy⟩
    | succ k => exact .inr ⟨k, by simpa using hk, hc, by rw [hy]; congr 1; omega⟩
  · rintro (⟨hc, hy⟩ | ⟨k, hk, hc, hy⟩)
    · exact ⟨0, by simp, hc, hy⟩
    · exact ⟨k + 1, by simpa using hk, hc, by rw [hy]; congr 1; omega⟩

/-- What drawing leaves of a drawing, when the pixels of `C` are those drawn on: the mode, the pixels outside C, the
pixels in C flipped, and `collide` where one of them was set. -/
structure Draws (d e : Drawing) (C : Nat → Nat → Prop) : Prop where
  mode : e.1.activeExt = d.1.activeExt
  flips : ∀ px py, C px py → e.1.get px py = !d.1.get px py
  keeps : ∀ px py, ¬ C px py → e.1.get px py = d.1.get px py
  collide : e.2 = true ↔ d.2 = true ∨ ∃ px py, C px py ∧ d.1.get px py = true

theorem Draws.width {d e : Drawing} {C : Nat → Nat → Prop} (h : Draws d e C) : e.1.width = d.1.width := by
  rw [Framebuffer.width_eq, Framebuffer.width_eq, h.mode]

theorem Draws.height {d e : Drawing} {C : Nat → Nat → Prop} (h : Draws d e C) : e.1.height = d.1.height := by
  rw [Framebuffer.height_eq, Framebuffer.height_eq, h.mode]

theorem Draws.congr {d e : Drawing} {C C' : Nat → Nat → Prop} (h : Draws d e C) (hc : ∀ px py, C' px py ↔ C px py) :
    Draws d e C' := by
  have : C' = C := by
    funext px py
    exact propext (hc px py)
  exact this ▸ h

theorem Draws.refl (d : Drawing) : Draws d d fun _ _ => False :=
  ⟨rfl, fun _ _ h => h.elim, fun _ _ _ => rfl, by simp⟩

/-- Two draws on pixels that do not meet are one draw on both. -/
theorem Draws.trans {d e f : Drawing} {C D : Nat → Nat → Prop} (h : Draws d e C) (h' : Draws e f D)
    (hdis : ∀ px py, C px py → ¬ D px py) : Draws d f fun px py => C px py ∨ D px py := by
  refine ⟨h'.mode.trans h.mode, ?_, ?_, ?_⟩
  · rintro px py (hc | hd)
    · rw [h'.keeps _ _ (hdis _ _ hc), h.flips _ _ hc]
    · rw [h'.flips _ _ hd, h.keeps _ _ fun hc => hdis _ _ hc hd]
  · intro px py hn
    rw [h'.keeps _ _ fun hd => hn (.inr hd), h.keeps _ _ fun hc => hn (.inl hc)]
  · rw [h'.collide, h.collide, or_assoc]
    refine or_congr_right ⟨?_, ?_⟩
    · rintro (⟨px, py, hc, hg⟩ | ⟨px, py, hd, hg⟩)
      · exact ⟨px, py, .inl hc, hg⟩
      · exact ⟨px, py, .inr hd, by rw [← h.keeps _ _ fun hc => hdis _ _ hc hd]; exact hg⟩
    · rintro ⟨px, py, hc | hd, hg⟩
      · exact .inl ⟨px, py, hc, hg⟩
      · exact .inr ⟨px, py, hd, by rw [h.keeps _ _ fun hc => hdis _ _ hc hd]; exact hg⟩

theorem drawPixel_draws {px py : Nat} {d : Drawing} (hx : px < d.1.width) (hy : py < d.1.height) :
    Draws d (drawPixel px py d) fun qx qy => qx = px ∧ qy = py := by
  refine ⟨by simp [drawPixel], ?_, ?_, ?_⟩
  · rintro qx qy ⟨rfl, rfl⟩
    simp [drawPixel, Framebuffer.get_set _ _ _ _ hx hy]
  · intro qx qy hn
    simp [drawPixel, Framebuffer.get_set _ _ _ _ hx hy, hn]
  · simp only [drawPixel, Bool.or_eq_true]
    exact or_congr_right ⟨fun h => ⟨px, py, ⟨rfl, rfl⟩, h⟩, fun ⟨_, _, ⟨rfl, rfl⟩, h⟩ => h⟩

theorem drawBits_draws {w x0 py : Nat} {sprite : Byte} {n : Nat} {d : Drawing} (hw : w = d.1.width)
    (hy : py < d.1.height) (hn : n ≤ 8) :
    Draws d (drawBits w x0 py sprite n d) fun qx qy => RowCovers w x0 sprite n qx ∧ qy = py := by
  have hwc : w = 64 ∨ w = 128 := hw ▸ d.1.width_cases
  induction n with
  | zero =>
    refine (Draws.refl d).congr fun qx qy => ?_
    simp [RowCovers]
  | succ n ih =>
    have hd := ih (by omega)
    simp only [drawBits]
    split
    · rename_i hbit
      have hp := drawPixel_draws (px := (x0 + n) % w) (py := py) (d := drawBits w x0 py sprite n d)
        (by rw [hd.width, ← hw]; exact Nat.mod_lt _ (by omega)) (by rw [hd.height]; exact hy)
      refine (hd.trans hp ?_).congr fun qx qy => ?_
      · rintro qx qy ⟨⟨b, hb, -, rfl⟩, rfl⟩ ⟨he, -⟩
        have := col_inj hwc (by omega) (by omega) he
        omega
      · rw [rowCovers_succ]
        constructor
        · rintro ⟨h | ⟨-, h⟩, rfl⟩
          · exact .inl ⟨h, rfl⟩
          · exact .inr ⟨h, rfl⟩
        · rintro (⟨h, rfl⟩ | ⟨h, rfl⟩)
          · exact ⟨.inl h, rfl⟩
          · exact ⟨.inr ⟨hbit, h⟩, rfl⟩
    · rename_i hbit
      refine hd.congr fun qx qy => ?_
      rw [rowCovers_succ]
      simp [hbit]

theorem drawRows_draws {w h x0 y0 : Nat} {sprite : List Byte} {r : Nat} {d : Drawing} (hw : w = d.1.width)
    (hh : h = d.1.height) (hr : r + sprite.length ≤ 16) :
    Draws d (drawRows w h x0 y0 sprite r d) (ListCovers w h x0 y0 sprite r) := by
  induction sprite generalizing r d with
  | nil =>
    refine (Draws.refl d).congr fun px py => ?_
    simp [ListCovers]
  | cons sp rest ih =>
    have hhc : h = 32 ∨ h = 64 := hh ▸ d.1.height_cases
    have hlen : r + (rest.length + 1) ≤ 16 := by simpa using hr
    have h1 := drawBits_draws (x0 := x0) (py := (y0 + r) % h) (sprite := sp) (n := 8) hw
      (by rw [← hh]; exact Nat.mod_lt _ (by omega)) (by omega)
    have h2 := ih (r := r + 1) (d := drawBits w x0 ((y0 + r) % h) sp 8 d) (by rw [h1.width, hw]) (by rw [h1.height, hh])
      (by omega)
    refine (h1.trans h2 ?_).congr fun px py => listCovers_cons
    rintro px py ⟨-, rfl⟩ ⟨k, hk, -, he⟩
    have := row_inj hhc (by omega) (by omega) he
    omega

/-- The spec of a whole sprite draw (R180). -/
theorem drawSprite_draws (fb : Framebuffer) (vx vy : Nat) {sprite : List Byte} (hn : sprite.length ≤ 16) :
    Draws (fb, false) (drawSprite fb vx vy sprite)
      (ListCovers fb.width fb.height (vx % fb.width) (vy % fb.height) sprite 0) :=
  drawRows_draws rfl rfl (by omega)

end Sys2Proof.Machine
end

