-- ==== Sys2Proof/Laws/Memory.lean ====
section
/-! SUPPORT. The laws of memory: read after write, and the canonical form that every memory operation keeps. -/

namespace Sys2Proof.Machine

variable {c : Params}

theorem Memory.wfFrom_cons (lo a : Nat) (x : Byte) (m : Memory) :
    Memory.wfFrom c lo ((a, x) :: m) = true ↔
      lo ≤ a ∧ a < c.memSize ∧ x ≠ unlistedByte c a ∧ Memory.wfFrom c (a + 1) m = true := by
  simp [Memory.wfFrom, and_assoc]

theorem Memory.wfFrom_mono {lo lo' : Nat} {m : Memory} (h : Memory.wfFrom c lo m = true) (hl : lo' ≤ lo) :
    Memory.wfFrom c lo' m = true := by
  cases m with
  | nil => rfl
  | cons cell m =>
    obtain ⟨a, x⟩ := cell
    rw [Memory.wfFrom_cons] at h ⊢
    exact ⟨by omega, h.2⟩

/-- Below the first listed address a memory reads as the reset image. -/
theorem Memory.read_below {lo a : Nat} {m : Memory} (h : Memory.wfFrom c lo m = true) (ha : a < lo) :
    Memory.read c m a = unlistedByte c a := by
  cases m with
  | nil => rfl
  | cons cell m =>
    obtain ⟨b, x⟩ := cell
    rw [Memory.wfFrom_cons] at h
    simp [Memory.read, show a ≠ b by omega, show a < b by omega]

theorem Memory.read_consCell {a b : Nat} {x : Byte} {m : Memory} (h : Memory.wfFrom c (a + 1) m = true) :
    Memory.read c (Memory.consCell c a x m) b = if b = a then x else Memory.read c m b := by
  unfold Memory.consCell
  split
  · rename_i hx
    split
    · rename_i hb
      subst hb
      rw [Memory.read_below h (by omega), hx]
    · rfl
  · simp only [Memory.read]
    split
    · rfl
    · split
      · exact (Memory.read_below h (by omega)).symm
      · rfl

theorem Memory.wfFrom_consCell {lo a : Nat} {x : Byte} {m : Memory} (h : Memory.wfFrom c (a + 1) m = true) (hl : lo ≤ a)
    (ha : a < c.memSize) : Memory.wfFrom c lo (Memory.consCell c a x m) = true := by
  unfold Memory.consCell
  split
  · exact Memory.wfFrom_mono h (by omega)
  · rw [Memory.wfFrom_cons]
    exact ⟨hl, ha, by assumption, h⟩

theorem Memory.wfFrom_put {m : Memory} {lo a : Nat} (x : Byte) (h : Memory.wfFrom c lo m = true) (hl : lo ≤ a)
    (ha : a < c.memSize) : Memory.wfFrom c lo (Memory.put c m a x) = true := by
  induction m generalizing lo with
  | nil => exact Memory.wfFrom_consCell rfl hl ha
  | cons cell m ih =>
    obtain ⟨b, y⟩ := cell
    rw [Memory.wfFrom_cons] at h
    simp only [Memory.put]
    split
    · exact Memory.wfFrom_consCell (by rw [Memory.wfFrom_cons]; exact ⟨by omega, h.2⟩) hl ha
    · split
      · rename_i hab
        subst hab
        exact Memory.wfFrom_consCell h.2.2.2 hl ha
      · rw [Memory.wfFrom_cons]
        exact ⟨h.1, h.2.1, h.2.2.1, ih h.2.2.2 (by omega)⟩

theorem Memory.read_put {m : Memory} {lo a b : Nat} (x : Byte) (h : Memory.wfFrom c lo m = true) :
    Memory.read c (Memory.put c m a x) b = if b = a then x else Memory.read c m b := by
  induction m generalizing lo with
  | nil => exact Memory.read_consCell rfl
  | cons cell m ih =>
    obtain ⟨d, y⟩ := cell
    rw [Memory.wfFrom_cons] at h
    simp only [Memory.put]
    split
    · exact Memory.read_consCell (by rw [Memory.wfFrom_cons]; exact ⟨by omega, h.2⟩)
    · split
      · rename_i hab
        subst hab
        rw [Memory.read_consCell h.2.2.2]
        split
        · rfl
        · rename_i hba
          simp only [Memory.read, if_neg hba]
          split
          · exact Memory.read_below h.2.2.2 (by omega)
          · rfl
      · simp only [Memory.read, ih h.2.2.2]
        repeat' split
        all_goals first | rfl | omega

/-- A memory that lists nothing is in canonical form. -/
theorem Memory.wf_nil : Memory.wf [] c = true := rfl

/-- A write keeps the canonical form. -/
theorem Memory.wf_write {m : Memory} (a : Nat) (x : Byte) (h : Memory.wf m c = true) :
    Memory.wf (Memory.write c m a x) c = true := by
  unfold Memory.write
  split
  · exact Memory.wfFrom_put x h (Nat.zero_le a) ‹_›
  · exact h

/-- Read after write, inside the capacity. -/
theorem Memory.read_write {m : Memory} {a : Nat} (b : Nat) (x : Byte) (h : Memory.wf m c = true)
    (ha : a < c.memSize) : Memory.read c (Memory.write c m a x) b = if b = a then x else Memory.read c m b := by
  rw [Memory.write, if_pos ha]
  exact Memory.read_put x h

/-- Two memories in canonical form that read alike are equal data. -/
theorem Memory.eq_of_read {lo : Nat} {m m' : Memory} (h : Memory.wfFrom c lo m = true) (h' : Memory.wfFrom c lo m' = true)
    (hr : ∀ a, Memory.read c m a = Memory.read c m' a) : m = m' := by
  induction m generalizing lo m' with
  | nil =>
    cases m' with
    | nil => rfl
    | cons cell m' =>
      obtain ⟨a, x⟩ := cell
      rw [Memory.wfFrom_cons] at h'
      exact absurd (by simpa [Memory.read] using (hr a).symm) h'.2.2.1
  | cons cell m ih =>
    obtain ⟨a, x⟩ := cell
    have hw := (Memory.wfFrom_cons ..).1 h
    cases m' with
    | nil => exact absurd (by simpa [Memory.read] using hr a) hw.2.2.1
    | cons cell' m' =>
      obtain ⟨a', x'⟩ := cell'
      have hw' := (Memory.wfFrom_cons ..).1 h'
      have haa : a = a' := by
        rcases Nat.lt_trichotomy a a' with hlt | heq | hgt
        · have := hr a
          simp only [Memory.read, if_pos, if_neg (Nat.ne_of_lt hlt), if_pos hlt] at this
          exact absurd this hw.2.2.1
        · exact heq
        · have := hr a'
          simp only [Memory.read, if_pos, if_neg (Nat.ne_of_lt hgt), if_pos hgt] at this
          exact absurd this.symm hw'.2.2.1
      subst haa
      have hx : x = x' := by simpa [Memory.read] using hr a
      subst hx
      congr 1
      refine ih hw.2.2.2 hw'.2.2.2 fun b => ?_
      rcases Nat.lt_or_ge a b with hab | hab
      · have := hr b
        simpa [Memory.read, Nat.ne_of_gt hab, Nat.not_lt.2 (Nat.le_of_lt hab)] using this
      · rw [Memory.read_below hw.2.2.2 (by omega), Memory.read_below hw'.2.2.2 (by omega)]

/-- A state's byte after a write to one. -/
theorem State.readByte_writeByte {s : State c} {a : Nat} (b : Nat) (x : Byte) (h : Memory.wf s.mem c = true)
    (ha : a < c.memSize) : (s.writeByte a x).readByte b = if b = a then x else s.readByte b :=
  Memory.read_write b x h ha

theorem State.wf_writeByte {s : State c} (a : Nat) (x : Byte) (h : Memory.wf s.mem c = true) :
    Memory.wf (s.writeByte a x).mem c = true :=
  Memory.wf_write a x h

/-! ### The address map (R72) -/

/-- The reset image is zero outside the reserved area. -/
theorem unlistedByte_of_not_reserved {a : Nat} (h : isReserved .hardware a = false) : unlistedByte .hardware a = 0 := by
  have ha : 80 ≤ a := by
    change (decide (0 ≤ a) && decide (a ≤ 511)) = false at h
    simp only [Nat.zero_le, decide_true, Bool.true_and, decide_eq_false_iff_not] at h
    omega
  have hl : Config.fontData.length = 80 := by decide
  change (if 0 ≤ a then Config.fontData.getD (a - 0) 0 else 0) = 0
  rw [if_pos (Nat.zero_le a), List.getD_eq_default]
  omega

end Sys2Proof.Machine
end

