-- ==== Sys2Proof/Laws/State.lean ====
section
/-! SUPPORT. One lemma per field of State per update, so that no later proof unfolds a record update. -/

namespace Sys2Proof.Machine

variable {c : Params}

/-- Between equal widths, as between the registers of this hardware but from V[x] to I and PC, a value moves unchanged. -/
@[simp] theorem zext_self {w : Nat} (b : BitVec w) : (zext b : BitVec w) = b := BitVec.setWidth_eq b

/-- A moved value is cut to the width it goes to (R13). -/
@[simp] theorem toNat_zext {v w : Nat} (b : BitVec v) : (zext b : BitVec w).toNat = b.toNat % 2 ^ w :=
  BitVec.toNat_setWidth w b

@[simp] theorem toNat_zextNnn {w : Nat} (nnn : BitVec 12) : (zextNnn nnn : BitVec w).toNat = nnn.toNat % 2 ^ w :=
  BitVec.toNat_setWidth w nnn

section setV
variable (s : State c) (x : Reg) (b : BitVec c.vWidth)
@[simp] theorem State.setV_v : (s.setV x b).v = s.v.set x.val b (x.inV c) := rfl
@[simp] theorem State.setV_i : (s.setV x b).i = s.i := rfl
@[simp] theorem State.setV_pc : (s.setV x b).pc = s.pc := rfl
@[simp] theorem State.setV_stack : (s.setV x b).stack = s.stack := rfl
@[simp] theorem State.setV_dt : (s.setV x b).dt = s.dt := rfl
@[simp] theorem State.setV_st : (s.setV x b).st = s.st := rfl
@[simp] theorem State.setV_mem : (s.setV x b).mem = s.mem := rfl
@[simp] theorem State.setV_fb : (s.setV x b).fb = s.fb := rfl
@[simp] theorem State.setV_modeExt : (s.setV x b).modeExt = s.modeExt := rfl
@[simp] theorem State.setV_keys : (s.setV x b).keys = s.keys := rfl
@[simp] theorem State.setV_fault : (s.setV x b).fault = s.fault := rfl
@[simp] theorem State.setV_dfc : (s.setV x b).dfc = s.dfc := rfl
@[simp] theorem State.setV_lastDf : (s.setV x b).lastDf = s.lastDf := rfl
@[simp] theorem State.setV_ran : (s.setV x b).ran = s.ran := rfl
@[simp] theorem State.setV_refusalMark : (s.setV x b).refusalMark = s.refusalMark := rfl
@[simp] theorem State.setV_draws : (s.setV x b).draws = s.draws := rfl
end setV

section setI
variable (s : State c) (a : BitVec c.iWidth)
@[simp] theorem State.setI_v : (s.setI a).v = s.v := rfl
@[simp] theorem State.setI_i : (s.setI a).i = a := rfl
@[simp] theorem State.setI_pc : (s.setI a).pc = s.pc := rfl
@[simp] theorem State.setI_stack : (s.setI a).stack = s.stack := rfl
@[simp] theorem State.setI_dt : (s.setI a).dt = s.dt := rfl
@[simp] theorem State.setI_st : (s.setI a).st = s.st := rfl
@[simp] theorem State.setI_mem : (s.setI a).mem = s.mem := rfl
@[simp] theorem State.setI_fb : (s.setI a).fb = s.fb := rfl
@[simp] theorem State.setI_modeExt : (s.setI a).modeExt = s.modeExt := rfl
@[simp] theorem State.setI_keys : (s.setI a).keys = s.keys := rfl
@[simp] theorem State.setI_fault : (s.setI a).fault = s.fault := rfl
@[simp] theorem State.setI_dfc : (s.setI a).dfc = s.dfc := rfl
@[simp] theorem State.setI_lastDf : (s.setI a).lastDf = s.lastDf := rfl
@[simp] theorem State.setI_ran : (s.setI a).ran = s.ran := rfl
@[simp] theorem State.setI_refusalMark : (s.setI a).refusalMark = s.refusalMark := rfl
@[simp] theorem State.setI_draws : (s.setI a).draws = s.draws := rfl
end setI

section setPc
variable (s : State c) (a : BitVec c.pcWidth)
@[simp] theorem State.setPc_v : (s.setPc a).v = s.v := rfl
@[simp] theorem State.setPc_i : (s.setPc a).i = s.i := rfl
@[simp] theorem State.setPc_pc : (s.setPc a).pc = a := rfl
@[simp] theorem State.setPc_stack : (s.setPc a).stack = s.stack := rfl
@[simp] theorem State.setPc_dt : (s.setPc a).dt = s.dt := rfl
@[simp] theorem State.setPc_st : (s.setPc a).st = s.st := rfl
@[simp] theorem State.setPc_mem : (s.setPc a).mem = s.mem := rfl
@[simp] theorem State.setPc_fb : (s.setPc a).fb = s.fb := rfl
@[simp] theorem State.setPc_modeExt : (s.setPc a).modeExt = s.modeExt := rfl
@[simp] theorem State.setPc_keys : (s.setPc a).keys = s.keys := rfl
@[simp] theorem State.setPc_fault : (s.setPc a).fault = s.fault := rfl
@[simp] theorem State.setPc_dfc : (s.setPc a).dfc = s.dfc := rfl
@[simp] theorem State.setPc_lastDf : (s.setPc a).lastDf = s.lastDf := rfl
@[simp] theorem State.setPc_ran : (s.setPc a).ran = s.ran := rfl
@[simp] theorem State.setPc_refusalMark : (s.setPc a).refusalMark = s.refusalMark := rfl
@[simp] theorem State.setPc_draws : (s.setPc a).draws = s.draws := rfl
end setPc

section setDt
variable (s : State c) (b : BitVec c.timerWidth)
@[simp] theorem State.setDt_v : (s.setDt b).v = s.v := rfl
@[simp] theorem State.setDt_i : (s.setDt b).i = s.i := rfl
@[simp] theorem State.setDt_pc : (s.setDt b).pc = s.pc := rfl
@[simp] theorem State.setDt_stack : (s.setDt b).stack = s.stack := rfl
@[simp] theorem State.setDt_dt : (s.setDt b).dt = b := rfl
@[simp] theorem State.setDt_st : (s.setDt b).st = s.st := rfl
@[simp] theorem State.setDt_mem : (s.setDt b).mem = s.mem := rfl
@[simp] theorem State.setDt_fb : (s.setDt b).fb = s.fb := rfl
@[simp] theorem State.setDt_modeExt : (s.setDt b).modeExt = s.modeExt := rfl
@[simp] theorem State.setDt_keys : (s.setDt b).keys = s.keys := rfl
@[simp] theorem State.setDt_fault : (s.setDt b).fault = s.fault := rfl
@[simp] theorem State.setDt_dfc : (s.setDt b).dfc = s.dfc := rfl
@[simp] theorem State.setDt_lastDf : (s.setDt b).lastDf = s.lastDf := rfl
@[simp] theorem State.setDt_ran : (s.setDt b).ran = s.ran := rfl
@[simp] theorem State.setDt_refusalMark : (s.setDt b).refusalMark = s.refusalMark := rfl
@[simp] theorem State.setDt_draws : (s.setDt b).draws = s.draws := rfl
end setDt

section setSt
variable (s : State c) (b : BitVec c.timerWidth)
@[simp] theorem State.setSt_v : (s.setSt b).v = s.v := rfl
@[simp] theorem State.setSt_i : (s.setSt b).i = s.i := rfl
@[simp] theorem State.setSt_pc : (s.setSt b).pc = s.pc := rfl
@[simp] theorem State.setSt_stack : (s.setSt b).stack = s.stack := rfl
@[simp] theorem State.setSt_dt : (s.setSt b).dt = s.dt := rfl
@[simp] theorem State.setSt_st : (s.setSt b).st = b := rfl
@[simp] theorem State.setSt_mem : (s.setSt b).mem = s.mem := rfl
@[simp] theorem State.setSt_fb : (s.setSt b).fb = s.fb := rfl
@[simp] theorem State.setSt_modeExt : (s.setSt b).modeExt = s.modeExt := rfl
@[simp] theorem State.setSt_keys : (s.setSt b).keys = s.keys := rfl
@[simp] theorem State.setSt_fault : (s.setSt b).fault = s.fault := rfl
@[simp] theorem State.setSt_dfc : (s.setSt b).dfc = s.dfc := rfl
@[simp] theorem State.setSt_lastDf : (s.setSt b).lastDf = s.lastDf := rfl
@[simp] theorem State.setSt_ran : (s.setSt b).ran = s.ran := rfl
@[simp] theorem State.setSt_refusalMark : (s.setSt b).refusalMark = s.refusalMark := rfl
@[simp] theorem State.setSt_draws : (s.setSt b).draws = s.draws := rfl
end setSt

section setFb
variable (s : State c) (g : Framebuffer c)
@[simp] theorem State.setFb_v : (s.setFb g).v = s.v := rfl
@[simp] theorem State.setFb_i : (s.setFb g).i = s.i := rfl
@[simp] theorem State.setFb_pc : (s.setFb g).pc = s.pc := rfl
@[simp] theorem State.setFb_stack : (s.setFb g).stack = s.stack := rfl
@[simp] theorem State.setFb_dt : (s.setFb g).dt = s.dt := rfl
@[simp] theorem State.setFb_st : (s.setFb g).st = s.st := rfl
@[simp] theorem State.setFb_mem : (s.setFb g).mem = s.mem := rfl
@[simp] theorem State.setFb_fb : (s.setFb g).fb = g := rfl
@[simp] theorem State.setFb_modeExt : (s.setFb g).modeExt = s.modeExt := rfl
@[simp] theorem State.setFb_keys : (s.setFb g).keys = s.keys := rfl
@[simp] theorem State.setFb_fault : (s.setFb g).fault = s.fault := rfl
@[simp] theorem State.setFb_dfc : (s.setFb g).dfc = s.dfc := rfl
@[simp] theorem State.setFb_lastDf : (s.setFb g).lastDf = s.lastDf := rfl
@[simp] theorem State.setFb_ran : (s.setFb g).ran = s.ran := rfl
@[simp] theorem State.setFb_refusalMark : (s.setFb g).refusalMark = s.refusalMark := rfl
@[simp] theorem State.setFb_draws : (s.setFb g).draws = s.draws := rfl
end setFb

section writeByte
variable (s : State c) (a : Nat) (b : Byte)
@[simp] theorem State.writeByte_v : (s.writeByte a b).v = s.v := rfl
@[simp] theorem State.writeByte_i : (s.writeByte a b).i = s.i := rfl
@[simp] theorem State.writeByte_pc : (s.writeByte a b).pc = s.pc := rfl
@[simp] theorem State.writeByte_stack : (s.writeByte a b).stack = s.stack := rfl
@[simp] theorem State.writeByte_dt : (s.writeByte a b).dt = s.dt := rfl
@[simp] theorem State.writeByte_st : (s.writeByte a b).st = s.st := rfl
@[simp] theorem State.writeByte_mem : (s.writeByte a b).mem = Memory.write c s.mem a b := rfl
@[simp] theorem State.writeByte_fb : (s.writeByte a b).fb = s.fb := rfl
@[simp] theorem State.writeByte_modeExt : (s.writeByte a b).modeExt = s.modeExt := rfl
@[simp] theorem State.writeByte_keys : (s.writeByte a b).keys = s.keys := rfl
@[simp] theorem State.writeByte_fault : (s.writeByte a b).fault = s.fault := rfl
@[simp] theorem State.writeByte_dfc : (s.writeByte a b).dfc = s.dfc := rfl
@[simp] theorem State.writeByte_lastDf : (s.writeByte a b).lastDf = s.lastDf := rfl
@[simp] theorem State.writeByte_ran : (s.writeByte a b).ran = s.ran := rfl
@[simp] theorem State.writeByte_refusalMark : (s.writeByte a b).refusalMark = s.refusalMark := rfl
@[simp] theorem State.writeByte_draws : (s.writeByte a b).draws = s.draws := rfl
end writeByte

section setVFlag
variable (s : State c) (x : Reg) (b : BitVec c.vWidth) (f : Bool)
@[simp] theorem State.setVFlag_v : (s.setVFlag x b f).v = (s.v.set x.val b (x.inV c)).set vf.val (flagByte f) (vf.inV c) := rfl
@[simp] theorem State.setVFlag_i : (s.setVFlag x b f).i = s.i := rfl
@[simp] theorem State.setVFlag_pc : (s.setVFlag x b f).pc = s.pc := rfl
@[simp] theorem State.setVFlag_stack : (s.setVFlag x b f).stack = s.stack := rfl
@[simp] theorem State.setVFlag_dt : (s.setVFlag x b f).dt = s.dt := rfl
@[simp] theorem State.setVFlag_st : (s.setVFlag x b f).st = s.st := rfl
@[simp] theorem State.setVFlag_mem : (s.setVFlag x b f).mem = s.mem := rfl
@[simp] theorem State.setVFlag_fb : (s.setVFlag x b f).fb = s.fb := rfl
@[simp] theorem State.setVFlag_modeExt : (s.setVFlag x b f).modeExt = s.modeExt := rfl
@[simp] theorem State.setVFlag_keys : (s.setVFlag x b f).keys = s.keys := rfl
@[simp] theorem State.setVFlag_fault : (s.setVFlag x b f).fault = s.fault := rfl
@[simp] theorem State.setVFlag_dfc : (s.setVFlag x b f).dfc = s.dfc := rfl
@[simp] theorem State.setVFlag_lastDf : (s.setVFlag x b f).lastDf = s.lastDf := rfl
@[simp] theorem State.setVFlag_ran : (s.setVFlag x b f).ran = s.ran := rfl
@[simp] theorem State.setVFlag_refusalMark : (s.setVFlag x b f).refusalMark = s.refusalMark := rfl
@[simp] theorem State.setVFlag_draws : (s.setVFlag x b f).draws = s.draws := rfl
end setVFlag

section skipIf
variable (s : State c) (f : Bool)
@[simp] theorem State.skipIf_v : (s.skipIf f).v = s.v := rfl
@[simp] theorem State.skipIf_i : (s.skipIf f).i = s.i := rfl
@[simp] theorem State.skipIf_pc : (s.skipIf f).pc = if f then s.pc + 4 else s.pc + 2 := rfl
@[simp] theorem State.skipIf_stack : (s.skipIf f).stack = s.stack := rfl
@[simp] theorem State.skipIf_dt : (s.skipIf f).dt = s.dt := rfl
@[simp] theorem State.skipIf_st : (s.skipIf f).st = s.st := rfl
@[simp] theorem State.skipIf_mem : (s.skipIf f).mem = s.mem := rfl
@[simp] theorem State.skipIf_fb : (s.skipIf f).fb = s.fb := rfl
@[simp] theorem State.skipIf_modeExt : (s.skipIf f).modeExt = s.modeExt := rfl
@[simp] theorem State.skipIf_keys : (s.skipIf f).keys = s.keys := rfl
@[simp] theorem State.skipIf_fault : (s.skipIf f).fault = s.fault := rfl
@[simp] theorem State.skipIf_dfc : (s.skipIf f).dfc = s.dfc := rfl
@[simp] theorem State.skipIf_lastDf : (s.skipIf f).lastDf = s.lastDf := rfl
@[simp] theorem State.skipIf_ran : (s.skipIf f).ran = s.ran := rfl
@[simp] theorem State.skipIf_refusalMark : (s.skipIf f).refusalMark = s.refusalMark := rfl
@[simp] theorem State.skipIf_draws : (s.skipIf f).draws = s.draws := rfl
end skipIf

section advance
variable (s : State c)
@[simp] theorem State.advance_v : s.advance.v = s.v := rfl
@[simp] theorem State.advance_i : s.advance.i = s.i := rfl
@[simp] theorem State.advance_pc : s.advance.pc = s.pc + 2 := rfl
@[simp] theorem State.advance_stack : s.advance.stack = s.stack := rfl
@[simp] theorem State.advance_dt : s.advance.dt = s.dt := rfl
@[simp] theorem State.advance_st : s.advance.st = s.st := rfl
@[simp] theorem State.advance_mem : s.advance.mem = s.mem := rfl
@[simp] theorem State.advance_fb : s.advance.fb = s.fb := rfl
@[simp] theorem State.advance_modeExt : s.advance.modeExt = s.modeExt := rfl
@[simp] theorem State.advance_keys : s.advance.keys = s.keys := rfl
@[simp] theorem State.advance_fault : s.advance.fault = s.fault := rfl
@[simp] theorem State.advance_dfc : s.advance.dfc = s.dfc := rfl
@[simp] theorem State.advance_lastDf : s.advance.lastDf = s.lastDf := rfl
@[simp] theorem State.advance_ran : s.advance.ran = s.ran := rfl
@[simp] theorem State.advance_refusalMark : s.advance.refusalMark = s.refusalMark := rfl
@[simp] theorem State.advance_draws : s.advance.draws = s.draws := rfl
end advance

section countDraw
variable (s : State c)
@[simp] theorem State.countDraw_v : s.countDraw.v = s.v := rfl
@[simp] theorem State.countDraw_i : s.countDraw.i = s.i := rfl
@[simp] theorem State.countDraw_pc : s.countDraw.pc = s.pc := rfl
@[simp] theorem State.countDraw_stack : s.countDraw.stack = s.stack := rfl
@[simp] theorem State.countDraw_dt : s.countDraw.dt = s.dt := rfl
@[simp] theorem State.countDraw_st : s.countDraw.st = s.st := rfl
@[simp] theorem State.countDraw_mem : s.countDraw.mem = s.mem := rfl
@[simp] theorem State.countDraw_fb : s.countDraw.fb = s.fb := rfl
@[simp] theorem State.countDraw_modeExt : s.countDraw.modeExt = s.modeExt := rfl
@[simp] theorem State.countDraw_keys : s.countDraw.keys = s.keys := rfl
@[simp] theorem State.countDraw_fault : s.countDraw.fault = s.fault := rfl
@[simp] theorem State.countDraw_dfc : s.countDraw.dfc = s.dfc := rfl
@[simp] theorem State.countDraw_lastDf : s.countDraw.lastDf = s.lastDf := rfl
@[simp] theorem State.countDraw_ran : s.countDraw.ran = s.ran := rfl
@[simp] theorem State.countDraw_refusalMark : s.countDraw.refusalMark = s.refusalMark := rfl
@[simp] theorem State.countDraw_draws : s.countDraw.draws = s.draws + 1 := rfl
end countDraw

/-- A register after a write to one. -/
theorem State.getV_setV (s : State c) (x r : Reg) (b : BitVec c.vWidth) : (s.setV x b).getV r = if x = r then b else s.getV r := by
  simp [State.getV, State.setV, Vector.getElem_set, Fin.ext_iff]

@[simp] theorem State.getV_setV_same (s : State c) (x : Reg) (b : BitVec c.vWidth) : (s.setV x b).getV x = b := by
  simp [State.getV_setV]

theorem State.getV_setV_other (s : State c) {x r : Reg} (b : BitVec c.vWidth) (h : x ≠ r) : (s.setV x b).getV r = s.getV r := by
  simp [State.getV_setV, h]

/-- VF after a flag-writing result holds the flag, whatever x is (R162). -/
@[simp] theorem State.getV_setVFlag_vf (s : State c) (x : Reg) (b : BitVec c.vWidth) (f : Bool) :
    (s.setVFlag x b f).getV vf = flagByte f := by
  simp [State.setVFlag]

/-- Every other register sees only the result (R162). -/
theorem State.getV_setVFlag_other (s : State c) (x : Reg) {r : Reg} (b : BitVec c.vWidth) (f : Bool) (h : r ≠ vf) :
    (s.setVFlag x b f).getV r = if x = r then b else s.getV r := by
  rw [State.setVFlag, State.getV_setV_other _ _ (Ne.symm h), State.getV_setV]

/-! The bounds of this hardware's registers as numerals, for omega. -/

theorem State.getV_lt (s : State) (x : Reg) : (s.getV x).toNat < 256 := (s.getV x).isLt

theorem State.i_lt (s : State) : s.i.toNat < 65536 := s.i.isLt

theorem State.pc_lt (s : State) : s.pc.toNat < 65536 := s.pc.isLt

theorem State.dfc_lt (s : State) : s.dfc.toNat < 4294967296 := s.dfc.isLt

/-- States with equal fields are equal, for goals about a framed update. -/
theorem State.eq_of_fields {s t : State c} (hv : s.v = t.v) (hi : s.i = t.i) (hpc : s.pc = t.pc) (hstack : s.stack = t.stack)
    (hdt : s.dt = t.dt) (hst : s.st = t.st) (hmem : s.mem = t.mem) (hfb : s.fb = t.fb) (hmode : s.modeExt = t.modeExt)
    (hkeys : s.keys = t.keys) (hfault : s.fault = t.fault) (hdfc : s.dfc = t.dfc) (hlast : s.lastDf = t.lastDf)
    (hran : s.ran = t.ran) (hmark : s.refusalMark = t.refusalMark) (hdraws : s.draws = t.draws) : s = t := by
  cases s
  cases t
  simp_all

end Sys2Proof.Machine
end

