-- ==== Sys2Proof/Laws/Operands.lean ====
section
/-! SUPPORT. What the register block moves do, said once (45_misc_f.md R207, R208). -/

namespace Sys2Proof.Machine

variable {c : Params}

/-- Storing registers writes memory and nothing else. -/
theorem State.storeRegs_eq (a n : Nat) (s : State c) : s.storeRegs a n = { s with mem := (s.storeRegs a n).mem } := by
  induction n with
  | zero => rfl
  | succ n ih =>
    simp only [State.storeRegs]
    split
    · rw [ih]
      rfl
    · exact ih

theorem State.storeRegs_getV (a n : Nat) (s : State c) (r : Reg) : (s.storeRegs a n).getV r = s.getV r := by
  rw [State.storeRegs_eq]
  rfl

theorem State.wf_storeRegs {a n : Nat} {s : State c} (h : Memory.wf s.mem c = true) :
    Memory.wf (s.storeRegs a n).mem c = true := by
  induction n with
  | zero => exact h
  | succ n ih =>
    simp only [State.storeRegs]
    split
    · exact State.wf_writeByte _ _ ih
    · exact ih

/-- The bytes stored are the registers, in order. -/
theorem State.readByte_storeRegs {a n : Nat} {s : State c} (h : Memory.wf s.mem c = true) (hn : n ≤ 16)
    (ha : a + n ≤ c.memSize) (k : Reg) (hk : k.val < n) : (s.storeRegs a n).readByte (a + k) = zext (s.getV k) := by
  induction n with
  | zero => omega
  | succ n ih =>
    have h16 : n < 16 := by omega
    simp only [State.storeRegs, dif_pos h16]
    rw [State.readByte_writeByte _ _ (State.wf_storeRegs h) (by omega)]
    split
    · have hk' : k = ⟨n, h16⟩ := Fin.ext (by simp; omega)
      rw [State.storeRegs_getV, hk']
    · exact ih (by omega) (by omega) (by omega)

/-- Every other byte is as it was. -/
theorem State.readByte_storeRegs_other {a n : Nat} {s : State c} (h : Memory.wf s.mem c = true)
    (ha : a + n ≤ c.memSize) (b : Nat) (hb : b < a ∨ a + n ≤ b) :
    (s.storeRegs a n).readByte b = s.readByte b := by
  induction n with
  | zero => rfl
  | succ n ih =>
    simp only [State.storeRegs]
    split
    · rw [State.readByte_writeByte _ _ (State.wf_storeRegs h) (by omega), if_neg (by omega)]
      exact ih (by omega) (by omega)
    · exact ih (by omega) (by omega)

/-- Loading registers writes registers and nothing else. -/
theorem State.loadRegs_eq (a n : Nat) (s : State c) : s.loadRegs a n = { s with v := (s.loadRegs a n).v } := by
  induction n with
  | zero => rfl
  | succ n ih =>
    simp only [State.loadRegs]
    split
    · rw [ih]
      rfl
    · exact ih

theorem State.loadRegs_readByte (a n b : Nat) (s : State c) : (s.loadRegs a n).readByte b = s.readByte b := by
  rw [State.loadRegs_eq]
  rfl

/-- The registers loaded are the bytes, in order; the others are as they were. -/
theorem State.getV_loadRegs {a n : Nat} {s : State c} (hn : n ≤ 16) (r : Reg) :
    (s.loadRegs a n).getV r = if r.val < n then zext (s.readByte (a + r)) else s.getV r := by
  induction n with
  | zero => simp [State.loadRegs]
  | succ n ih =>
    have h16 : n < 16 := by omega
    simp only [State.loadRegs, dif_pos h16]
    rw [State.getV_setV, State.loadRegs_readByte, ih (by omega)]
    by_cases hr : r.val = n
    · have : (⟨n, h16⟩ : Reg) = r := Fin.ext hr.symm
      simp [this, hr]
    · have : ¬ (⟨n, h16⟩ : Reg) = r := fun h => hr (congrArg Fin.val h).symm
      simp only [if_neg this]
      split <;> split <;> first | rfl | omega

end Sys2Proof.Machine
end

