-- ==== Sys2Proof/Laws/Ops.lean ====
section
/-! SUPPORT. What each shared operation can do, said once: an inversion lemma per operation that checks. -/

namespace Sys2Proof.Machine

variable {c : Params}

/-- Fault entry answers a next state, the one of R234. -/
theorem raise_eq (r : FaultRecord) (s : State c) : raise r s = .next { s with fault := some r, ran := true } := rfl

/-- The range check either raises on the lowest address out of range, or goes on. -/
theorem checkMem_next {w : Word} {a n : Nat} {s t : State c} {k : Result c} (h : checkMem w a n s k = .next t) :
    (c.memSize < a + n ∧ t = { s with fault := some (memFault w (max a c.memSize) s), ran := true }) ∨
    (a + n ≤ c.memSize ∧ k = .next t) := by
  unfold checkMem at h
  split at h
  · rw [raise_eq] at h
    cases h
    exact .inl ⟨‹_›, rfl⟩
  · exact .inr ⟨by omega, h⟩

theorem checkMem_pass {w : Word} {a n : Nat} {s : State c} {k : Result c} (h : a + n ≤ c.memSize) :
    checkMem w a n s k = k := if_neg (by omega)

theorem checkMem_fail {w : Word} {a n : Nat} {s : State c} {k : Result c} (h : c.memSize < a + n) :
    checkMem w a n s k = raise (memFault w (max a c.memSize) s) s := if_pos h

/-- The key check either raises on the index, or goes on with the key. -/
theorem checkKey_next {w : Word} {b : BitVec c.vWidth} {s t : State c} {k : Key c → Result c} (h : checkKey w b s k = .next t) :
    (c.numKeys ≤ b.toNat ∧ t = { s with fault := some (keyFault w b s), ran := true }) ∨
    (∃ j : Key c, j.val = b.toNat ∧ k j = .next t) := by
  unfold checkKey at h
  split at h
  · exact .inr ⟨_, rfl, h⟩
  · rename_i hb
    rw [raise_eq] at h
    cases h
    exact .inl ⟨Nat.le_of_not_lt hb, rfl⟩

theorem checkKey_pass {w : Word} {b : BitVec c.vWidth} {s : State c} {k : Key c → Result c} {j : Key c} (h : j.val = b.toNat) :
    checkKey w b s k = k j := by
  have hb : b.toNat < c.numKeys := h ▸ j.isLt
  rw [checkKey, dif_pos hb]
  exact congrArg k (Fin.ext h.symm)

theorem checkKey_fail {w : Word} {b : BitVec c.vWidth} {s : State c} {k : Key c → Result c} (h : c.numKeys ≤ b.toNat) :
    checkKey w b s k = raise (keyFault w b s) s :=
  dif_neg (Nat.not_lt.2 h)

/-- A push either overflows or goes on with one entry more. -/
theorem pushThen_next {w : Word} {a : BitVec c.stackEntryWidth} {s t : State c} {k : State c → Result c} (h : pushThen w a s k = .next t) :
    (c.stackDepth ≤ s.stack.length ∧ t = { s with fault := some (stackFault .stackOverflow w s), ran := true }) ∨
    (s.stack.length < c.stackDepth ∧ k { s with stack := s.stack ++ [a] } = .next t) := by
  unfold pushThen at h
  split at h
  · rw [raise_eq] at h
    cases h
    exact .inl ⟨‹_›, rfl⟩
  · exact .inr ⟨by omega, h⟩

/-- A pop either underflows or goes on with the last entry taken off. -/
theorem popThen_next {w : Word} {s t : State c} {k : BitVec c.stackEntryWidth → State c → Result c} (h : popThen w s k = .next t) :
    (s.stack = [] ∧ t = { s with fault := some (stackFault .stackUnderflow w s), ran := true }) ∨
    (∃ rest a, s.stack = rest ++ [a] ∧ k a { s with stack := rest } = .next t) := by
  unfold popThen at h
  split at h
  · rename_i hs
    rw [raise_eq] at h
    cases h
    exact .inl ⟨by simpa using hs, rfl⟩
  · rename_i a hs
    obtain ⟨rest, hr⟩ := List.getLast?_eq_some_iff.1 hs
    rw [hr, List.dropLast_concat] at h
    exact .inr ⟨rest, a, hr, h⟩

theorem popThen_concat {w : Word} {s : State c} {k : BitVec c.stackEntryWidth → State c → Result c} {rest : List (BitVec c.stackEntryWidth)} {a : BitVec c.stackEntryWidth}
    (h : s.stack = rest ++ [a]) : popThen w s k = k a { s with stack := rest } := by
  simp [popThen, h]

/-- The lowest pressed key: it is pressed and no lower one is (R201). -/
theorem State.lowestKey_eq_some {s : State c} {k : Key c} :
    s.lowestKey = some k ↔ s.keys[k] = true ∧ ∀ j : Key c, j < k → s.keys[j] = false := by
  simp only [State.lowestKey, List.find?_eq_some_iff_getElem, List.getElem_finRange]
  constructor
  · rintro ⟨hk, n, hn, hnk, hlow⟩
    subst hnk
    exact ⟨hk, fun j hj => by simpa using hlow j.val hj⟩
  · rintro ⟨hk, hlow⟩
    exact ⟨hk, k.val, by simp, rfl, fun j hj => by simpa using hlow ⟨j, by omega⟩ hj⟩

/-- No key is pressed (R201). -/
theorem State.lowestKey_eq_none {s : State c} : s.lowestKey = none ↔ ∀ k : Key c, s.keys[k] = false := by
  simp [State.lowestKey]

end Sys2Proof.Machine
end

