-- ==== Sys2Proof/Laws/PerInstr.lean ====
section
/-! SUPPORT. Per instruction: the fixed bits of an instruction's word are those of its row in spec/opcode_table.json. -/

namespace Sys2Proof.Laws.TableRow

/-- The fixed bit fields of the instruction's row, as (hi, lo, value): the "fixed" column of spec/opcode_table.json. -/
def fixed : Instr → List (Nat × Nat × Nat)
  | .cls => [(15, 0, 0xE0)]
  | .ret => [(15, 0, 0xEE)]
  | .jp _ => [(15, 12, 0x1)]
  | .call _ => [(15, 12, 0x2)]
  | .seB _ _ => [(15, 12, 0x3)]
  | .sneB _ _ => [(15, 12, 0x4)]
  | .seR _ _ => [(3, 0, 0x0), (15, 12, 0x5)]
  | .ldB _ _ => [(15, 12, 0x6)]
  | .addB _ _ => [(15, 12, 0x7)]
  | .ldR _ _ => [(3, 0, 0x0), (15, 12, 0x8)]
  | .or _ _ => [(3, 0, 0x1), (15, 12, 0x8)]
  | .and _ _ => [(3, 0, 0x2), (15, 12, 0x8)]
  | .xor _ _ => [(3, 0, 0x3), (15, 12, 0x8)]
  | .addR _ _ => [(3, 0, 0x4), (15, 12, 0x8)]
  | .sub _ _ => [(3, 0, 0x5), (15, 12, 0x8)]
  | .shr _ _ => [(3, 0, 0x6), (15, 12, 0x8)]
  | .subn _ _ => [(3, 0, 0x7), (15, 12, 0x8)]
  | .shl _ _ => [(3, 0, 0xE), (15, 12, 0x8)]
  | .sneR _ _ => [(3, 0, 0x0), (15, 12, 0x9)]
  | .ldI _ => [(15, 12, 0xA)]
  | .jpV0 _ => [(15, 12, 0xB)]
  | .rnd _ _ => [(15, 12, 0xC)]
  | .drw _ _ _ => [(15, 12, 0xD)]
  | .drw0 _ _ => [(3, 0, 0x0), (15, 12, 0xD)]
  | .skp _ => [(7, 0, 0x9E), (15, 12, 0xE)]
  | .sknp _ => [(7, 0, 0xA1), (15, 12, 0xE)]
  | .ldVxDt _ => [(7, 0, 0x7), (15, 12, 0xF)]
  | .ldVxK _ => [(7, 0, 0xA), (15, 12, 0xF)]
  | .ldDtVx _ => [(7, 0, 0x15), (15, 12, 0xF)]
  | .ldStVx _ => [(7, 0, 0x18), (15, 12, 0xF)]
  | .addI _ => [(7, 0, 0x1E), (15, 12, 0xF)]
  | .ldF _ => [(7, 0, 0x29), (15, 12, 0xF)]
  | .ldBcd _ => [(7, 0, 0x33), (15, 12, 0xF)]
  | .ldMemVx _ => [(7, 0, 0x55), (15, 12, 0xF)]
  | .ldVxMem _ => [(7, 0, 0x65), (15, 12, 0xF)]

/-- The word holds these fixed fields. -/
abbrev Holds (w : Word) (fs : List (Nat × Nat × Nat)) : Prop :=
  ∀ f ∈ fs, w.toNat / 2 ^ f.2.1 % 2 ^ (f.1 + 1 - f.2.1) = f.2.2

/-- The fixed bits of the instruction's word are its row's. -/
abbrev Statement (i : Instr) : Prop := Holds (encode i) (fixed i)

/-! One lemma per format (30_encoding.md R102). -/

theorem encA_fixed (op : BitVec 4) (nnn : BitVec 12) : Holds (encA op nnn) [(15, 12, op.toNat)] := by
  have := nnn.isLt
  simp only [Holds, List.mem_singleton, forall_eq, toNat_encA]
  omega

theorem encXB_fixed (op : BitVec 4) (x : Reg) (nn : Byte) : Holds (encXB op x nn) [(15, 12, op.toNat)] := by
  have := nn.isLt
  have := x.isLt
  simp only [Holds, List.mem_singleton, forall_eq, toNat_encXB]
  omega

theorem encXYN_fixed (op n : BitVec 4) (x y : Reg) : Holds (encXY op x y n) [(15, 12, op.toNat)] := by
  have := n.isLt
  have := x.isLt
  have := y.isLt
  simp only [Holds, List.mem_singleton, forall_eq, toNat_encXY]
  omega

theorem encXF_fixed (op : BitVec 4) (x : Reg) (nn : Byte) :
    Holds (encXB op x nn) [(7, 0, nn.toNat), (15, 12, op.toNat)] := by
  have := nn.isLt
  have := x.isLt
  simp only [Holds, List.mem_cons, List.not_mem_nil, or_false, forall_eq_or_imp, forall_eq, toNat_encXB]
  omega

theorem encXY_fixed (op n : BitVec 4) (x y : Reg) :
    Holds (encXY op x y n) [(3, 0, n.toNat), (15, 12, op.toNat)] := by
  have := n.isLt
  have := x.isLt
  have := y.isLt
  simp only [Holds, List.mem_cons, List.not_mem_nil, or_false, forall_eq_or_imp, forall_eq, toNat_encXY]
  omega

/-! One lemma per instruction. -/

theorem cls : Statement .cls := by decide

theorem ret : Statement .ret := by decide

theorem jp (nnn : BitVec 12) : Statement (.jp nnn) := encA_fixed _ _

theorem call (nnn : BitVec 12) : Statement (.call nnn) := encA_fixed _ _

theorem seB (x : Reg) (nn : Byte) : Statement (.seB x nn) := encXB_fixed _ _ _

theorem sneB (x : Reg) (nn : Byte) : Statement (.sneB x nn) := encXB_fixed _ _ _

theorem seR (x y : Reg) : Statement (.seR x y) := encXY_fixed _ _ _ _

theorem ldB (x : Reg) (nn : Byte) : Statement (.ldB x nn) := encXB_fixed _ _ _

theorem addB (x : Reg) (nn : Byte) : Statement (.addB x nn) := encXB_fixed _ _ _

theorem ldR (x y : Reg) : Statement (.ldR x y) := encXY_fixed _ _ _ _

theorem or (x y : Reg) : Statement (.or x y) := encXY_fixed _ _ _ _

theorem and (x y : Reg) : Statement (.and x y) := encXY_fixed _ _ _ _

theorem xor (x y : Reg) : Statement (.xor x y) := encXY_fixed _ _ _ _

theorem addR (x y : Reg) : Statement (.addR x y) := encXY_fixed _ _ _ _

theorem sub (x y : Reg) : Statement (.sub x y) := encXY_fixed _ _ _ _

theorem shr (x y : Reg) : Statement (.shr x y) := encXY_fixed _ _ _ _

theorem subn (x y : Reg) : Statement (.subn x y) := encXY_fixed _ _ _ _

theorem shl (x y : Reg) : Statement (.shl x y) := encXY_fixed _ _ _ _

theorem sneR (x y : Reg) : Statement (.sneR x y) := encXY_fixed _ _ _ _

theorem ldI (nnn : BitVec 12) : Statement (.ldI nnn) := encA_fixed _ _

theorem jpV0 (nnn : BitVec 12) : Statement (.jpV0 nnn) := encA_fixed _ _

theorem rnd (x : Reg) (nn : Byte) : Statement (.rnd x nn) := encXB_fixed _ _ _

theorem drw (x y : Reg) (n : Fin 16) : Statement (.drw x y n) := encXYN_fixed _ _ _ _

theorem drw0 (x y : Reg) : Statement (.drw0 x y) := encXY_fixed _ _ _ _

theorem skp (x : Reg) : Statement (.skp x) := encXF_fixed _ _ _

theorem sknp (x : Reg) : Statement (.sknp x) := encXF_fixed _ _ _

theorem ldVxDt (x : Reg) : Statement (.ldVxDt x) := encXF_fixed _ _ _

theorem ldVxK (x : Reg) : Statement (.ldVxK x) := encXF_fixed _ _ _

theorem ldDtVx (x : Reg) : Statement (.ldDtVx x) := encXF_fixed _ _ _

theorem ldStVx (x : Reg) : Statement (.ldStVx x) := encXF_fixed _ _ _

theorem addI (x : Reg) : Statement (.addI x) := encXF_fixed _ _ _

theorem ldF (x : Reg) : Statement (.ldF x) := encXF_fixed _ _ _

theorem ldBcd (x : Reg) : Statement (.ldBcd x) := encXF_fixed _ _ _

theorem ldMemVx (x : Reg) : Statement (.ldMemVx x) := encXF_fixed _ _ _

theorem ldVxMem (x : Reg) : Statement (.ldVxMem x) := encXF_fixed _ _ _

end Sys2Proof.Laws.TableRow
end

