-- ==== Sys2Proof/Laws/Step.lean ====
section
/-! SUPPORT. What a step can do, said once, and the operations of the host. -/

namespace Sys2Proof.Machine

variable {c : Params}

/-- The fetch check passes at a PC inside MemoryImage that is even where ODD_PC_FAULTS holds, and nowhere else (R106). -/
theorem checkFetch_eq_none {pc : BitVec c.pcWidth} :
    checkFetch c pc = none ↔ (c.oddPcFaults = true → pc.getLsbD 0 = false) ∧ pc.toNat + 1 < c.memSize := by
  unfold checkFetch
  split
  · simp_all
  · split
    · simp
      omega
    · split
      · simp
        omega
      · simp_all

/-- The fetch check of this hardware. -/
theorem checkFetch_none {pc : Addr} :
    checkFetch .hardware pc = none ↔ pc.getLsbD 0 = false ∧ pc.toNat + 1 < 4096 := by
  simp [checkFetch_eq_none]

/-- The dispatch at the hardware's configuration is `exec`: both call the same meanings. -/
@[simp] theorem execIn_eq (i : Instr) (s : State) : execIn i s = exec i s := by
  cases i <;> rfl

/-- A step is the cycle at the hardware's configuration (R10, R104). -/
theorem step_eq (s : State) : step s = cycle s := rfl

/-- The same, to read the host's cycle operation by `step`. -/
theorem cycle_eq_step (s : State) : cycle s = step s := rfl

/-- What a fetched word does, by what it decodes to in the active mode (R105). -/
theorem execWord_instr {w : Word} {s : State} {i : Instr} {ext : ExtOpcodes .hardware}
    (h : decode w s.fb.activeExt = .instr i) : execWord w s ext = exec i s := by
  simp [execWord, State.activeExt, h]

theorem execWord_unknown {w : Word} {s : State c} {ext : ExtOpcodes c} (h : decode w s.fb.activeExt = .unknown) :
    execWord w s ext = .next (decodeFault w s) := by
  simp [execWord, State.activeExt, h]

theorem execWord_refusedExt {w : Word} {s : State c} {ext : ExtOpcodes c}
    (h : decode w s.fb.activeExt = .refusedExt) : execWord w s ext = execExtended ext w s := by
  simp [execWord, State.activeExt, h]

theorem toNat_one_of_lt {w : Nat} (h : 1 < 2 ^ w) : (1 : BitVec w).toNat = 1 := Nat.mod_eq_of_lt h

/-- The DecodeFault counter saturates at its largest value (R111). -/
theorem toNat_decodeFault_dfc (w : Word) (s : State c) :
    (decodeFault w s).dfc.toNat = min (s.dfc.toNat + 1) (2 ^ c.dfcWidth - 1) := by
  have hlt : s.dfc.toNat < 2 ^ c.dfcWidth := s.dfc.isLt
  simp only [decodeFault, State.advance_dfc]
  split
  · have h1 : (1 : BitVec c.dfcWidth).toNat = 1 := toNat_one_of_lt (by omega)
    rw [BitVec.toNat_add_of_lt (by rw [h1]; omega), h1]
    omega
  · omega

/-- A step that answers a next state had no fault latched and no refusal mark; it raised a fetch fault, or ran the
decoded instruction, or counted a DecodeFault (R105). -/
theorem step_next {s t : State} (h : step s = .next t) :
    s.fault = none ∧ s.refusalMark = false ∧
    ((∃ r, checkFetch .hardware s.pc = some r ∧ t = { s with fault := some r, ran := true }) ∨
     (checkFetch .hardware s.pc = none ∧
      ((∃ i, decode s.fetchWord s.activeExt = .instr i ∧ exec i { s with ran := true } = .next t) ∨
       (decode s.fetchWord s.activeExt = .unknown ∧ t = decodeFault s.fetchWord { s with ran := true })))) := by
  simp only [step_eq, cycle] at h
  split at h
  · cases h
  · rename_i hf
    split at h
    · cases h
    · rename_i hm
      refine ⟨hf, by simpa using hm, ?_⟩
      simp only [runCycle] at h
      split at h
      · rename_i r hr
        rw [raise_eq] at h
        cases h
        exact .inl ⟨r, hr, rfl⟩
      · rename_i hr
        refine .inr ⟨hr, ?_⟩
        simp only [execWord] at h
        split at h
        · rename_i i hi
          exact .inl ⟨i, hi, execIn_eq i _ ▸ h⟩
        · rename_i hu
          cases h
          exact .inr ⟨hu, rfl⟩
        · cases h

/-- A step from a state that can fetch is what its word decodes to (R105). -/
theorem step_of_canFetch {s : State} (h : s.CanFetch) : step s = execWord s.fetchWord { s with ran := true } := by
  obtain ⟨hf, hm, hc⟩ := h
  simp only [step_eq, cycle, hf, hm, runCycle, hc]
  rfl

@[simp] theorem copyBytes_nil (a : Nat) (s : State c) : copyBytes a [] s = s := rfl

/-- Copying bytes writes memory and nothing else. -/
theorem copyBytes_eq (a : Nat) (bytes : List Byte) (s : State c) :
    copyBytes a bytes s = { s with mem := (copyBytes a bytes s).mem } := by
  induction bytes generalizing a s with
  | nil => rfl
  | cons b rest ih =>
    simp only [copyBytes]
    rw [ih]
    rfl

theorem wf_copyBytes {a : Nat} {bytes : List Byte} {s : State c} (h : Memory.wf s.mem c = true) :
    Memory.wf (copyBytes a bytes s).mem c = true := by
  induction bytes generalizing a s with
  | nil => exact h
  | cons b rest ih => exact ih (State.wf_writeByte _ _ h)

/-- The bytes copied stand at consecutive addresses; every other byte is as it was (R274). -/
theorem readByte_copyBytes {a : Nat} {bytes : List Byte} {s : State c} (h : Memory.wf s.mem c = true)
    (ha : a + bytes.length ≤ c.memSize) (b : Nat) :
    (copyBytes a bytes s).readByte b =
      if hb : a ≤ b ∧ b - a < bytes.length then bytes[b - a]'hb.2 else s.readByte b := by
  induction bytes generalizing a s with
  | nil => simp
  | cons x rest ih =>
    simp only [List.length_cons] at ha ⊢
    simp only [copyBytes]
    rw [ih (State.wf_writeByte _ _ h) (by omega)]
    split
    · rename_i hb
      rw [dif_pos (by omega)]
      have : b - a = (b - (a + 1)) + 1 := by omega
      simp only [this, List.getElem_cons_succ]
    · rename_i hb
      rw [State.readByte_writeByte _ _ h (by omega)]
      split
      · rename_i hba
        subst hba
        simp
      · rw [dif_neg (by omega)]

/-- One tick takes a counter down by one, and no further than 0 (R250). -/
theorem toNat_tick {w : Nat} (b : BitVec w) : (tick b).toNat = b.toNat - 1 := by
  unfold tick
  split
  · subst_vars
    rfl
  · rename_i hb
    have : 1 ≤ b.toNat := by
      rcases Nat.eq_zero_or_pos b.toNat with h0 | h0
      · exact absurd (BitVec.eq_of_toNat_eq h0) hb
      · exact h0
    have hlt : b.toNat < 2 ^ w := b.isLt
    have h1 : (1 : BitVec w).toNat = 1 := toNat_one_of_lt (by omega)
    rw [BitVec.toNat_sub_of_le (BitVec.le_def.2 (by rw [h1]; exact this)), h1]

/-- While the host makes no cycle and no reset, each timer has lost one for each tick, down to 0 (R250, R251). -/
theorem timers_runOps (ops : List (HostOp c)) (h : ∀ op ∈ ops, op ≠ .cycle ∧ op ≠ .reset) (s : State c) :
    (runOps ops s).dt.toNat = s.dt.toNat - ops.count .tickTimers ∧
    (runOps ops s).st.toNat = s.st.toNat - ops.count .tickTimers := by
  induction ops generalizing s with
  | nil => exact ⟨rfl, rfl⟩
  | cons op rest ih =>
    obtain ⟨hd, ht⟩ := ih (fun o ho => h o (List.mem_cons_of_mem _ ho)) (transact op s).2
    have hop := h op (List.mem_cons_self ..)
    simp only [runOps, hd, ht, List.count_cons]
    cases op with
    | cycle => exact absurd rfl hop.1
    | reset => exact absurd rfl hop.2
    | tickTimers =>
      simp only [transact, tickTimersOp, beq_self_eq_true, if_true]
      change (tick s.dt).toNat - _ = _ ∧ (tick s.st).toNat - _ = _
      rw [toNat_tick, toNat_tick]
      omega
    | load image =>
      simp only [transact, loadOp]
      split
      · exact ⟨rfl, rfl⟩
      · split
        · exact ⟨rfl, rfl⟩
        · split
          · exact ⟨rfl, rfl⟩
          · rw [copyBytes_eq]
            exact ⟨rfl, rfl⟩
    | setExtendedMode b => exact ⟨rfl, rfl⟩
    | setKey k b => exact ⟨rfl, rfl⟩

/-- With the cadence kept, TIMER_HZ a second (R251). -/
theorem timers_cadence (seconds : List (List (HostOp c))) (hk : KeepsCadence c seconds)
    (h : ∀ op ∈ seconds.flatten, op ≠ .cycle ∧ op ≠ .reset) (s : State c) :
    (runOps seconds.flatten s).dt.toNat = s.dt.toNat - c.timerHz * seconds.length ∧
    (runOps seconds.flatten s).st.toNat = s.st.toNat - c.timerHz * seconds.length := by
  have hc : seconds.flatten.count .tickTimers = c.timerHz * seconds.length := by
    clear h
    induction seconds with
    | nil => rfl
    | cons ops rest ih =>
      simp only [List.flatten_cons, List.count_append, List.length_cons]
      rw [ih fun o ho => hk o (List.mem_cons_of_mem _ ho), hk ops (List.mem_cons_self ..)]
      rw [Nat.mul_succ, Nat.add_comm]
  rw [← hc]
  exact timers_runOps _ h s

end Sys2Proof.Machine
end

