-- ==== Sys2Proof/Tests/Slice0.lean ====
section
/-! SUPPORT. The model's own tests: well-formedness, a word of every instruction, the spec's test vectors
(95_test_vectors.md; the id of each is named), and for every statement with hypotheses a witness that meets them. -/

namespace Sys2Proof.Tests

open Sys2Proof Sys2Proof.Machine

set_option Elab.async false

/-! ### Helpers -/

/-- The answer is a next state with this property. -/
def nextSat {c : Params} (p : State c → Bool) : Result c → Bool
  | .next t => p t
  | .fault _ => false
  | .refused _ => false

/-- The answer is this refusal. -/
def refusedWith {c : Params} (r : Refusal) : Result c → Bool
  | .next _ => false
  | .fault _ => false
  | .refused q => decide (q = r)

/-- The state after reset with a word at 0x200. -/
def withWord (w : Nat) : State := State.reset.withFetchWord 16 w

/-- The same in extended mode. -/
def withWordExt (w : Nat) : State := (State.afterReset true 0).withFetchWord 16 w

/-- Registers set one after the other. -/
def regs {c : Params} (l : List (Reg × Byte)) (s : State c) : State c := l.foldl (fun t p => t.setV p.1 (zext p.2)) s

/-- Every register from V0 on is checked against a list. -/
def regsAre {c : Params} (l : List (Reg × Byte)) (s : State c) : Bool := l.all fun p => s.getV p.1 == zext p.2

/-- The first pixels are set and the second ones are not. -/
def pixels {c : Params} (on off : List (Nat × Nat)) (s : State c) : Bool :=
  (on.all fun p => s.fb.get p.1 p.2) && off.all fun p => !s.fb.get p.1 p.2

/-- The latched fault of kind, pc, word, address and space. -/
def faultIs (k : FaultKind) (pc : Addr) (w a : Word) (sp : Space) {c : Params} (s : State c) : Bool :=
  s.fault == some ⟨k, pc, w, a, sp⟩ && s.pc == zext pc

/-- One cycle of a word at 0x200, with registers set before and checked after; PC ends at 0x202. -/
def regTest (w : Nat) (before after : List (Reg × Byte)) : Bool :=
  nextSat (fun t => regsAre after t && t.pc == 0x202#16 && t.fault.isNone) (step (regs before (withWord w)))

/-- Two cycles. -/
def twoSteps (p : State → Bool) (s : State) : Bool := nextSat (fun t => nextSat p (step t)) (step s)

/-- The hardware's configuration but for ODD_PC_FAULTS. -/
def oddAllowed : Params := { Params.hardware with oddPcFaults := false }

/-- Another block (R10, R52): less memory, another load address, a stack of 2, a framebuffer of 16 by 16, a font of one
glyph of 2 bytes elsewhere, and draws that are all 0xA7. -/
def otherBlock : Params :=
  { Params.hardware with
    memSize := 0x120, loadAddr := 0x100, stackDepth := 2, stdWidth := 16, stdHeight := 16
    fontBase := 0x10, fontStride := 2, fontData := [0xC0, 0xC0], random8 := fun _ => 0xA7 }

/-- That block after reset, with a word at its load address. -/
def otherWith (w : Nat) : State otherBlock := (State.afterReset false 0).withFetchWord 16 w

/-- A block with every width and count another: 20 registers of 4 bits, I of 12, PC of 11, return addresses of 8, timers of
2, 4 keys, a DecodeFault counter of 2. -/
def narrowBlock : Params :=
  { Params.hardware with
    numV := 20, numV_fields := by decide, vWidth := 4, iWidth := 12, pcWidth := 11, stackEntryWidth := 8, timerWidth := 2
    numKeys := 4, dfcWidth := 2 }

/-- That block after reset, with a word at 0x200. -/
def narrowWith (w : Nat) : State narrowBlock := (State.afterReset false 0).withFetchWord 16 w

/-! ### Well-formedness -/

theorem test_wellFormed_refuses_drw_of_no_rows : (Instr.drw 0 0 0).wellFormed = false := by decide

theorem test_wellFormed_accepts_drw_of_one_row : (Instr.drw 15 15 1).wellFormed = true := by decide

/-! ### Decoding: a word of every instruction, its nibbles written from R102 and R107 -/

theorem test_decode_control :
    decode 0x00E0 false = .instr .cls ∧ decode 0x00EE true = .instr .ret ∧
    decode 0x1234 false = .instr (.jp 0x234) ∧ decode 0x2FED true = .instr (.call 0xFED) := by decide

theorem test_decode_skip :
    decode 0x3A5C false = .instr (.seB 10 0x5C) ∧ decode 0x4A5C true = .instr (.sneB 10 0x5C) ∧
    decode 0x51E0 false = .instr (.seR 1 14) ∧ decode 0x91E0 true = .instr (.sneR 1 14) := by decide

theorem test_decode_register :
    decode 0x6B81 false = .instr (.ldB 11 0x81) ∧ decode 0x7B81 false = .instr (.addB 11 0x81) ∧
    decode 0x83D0 false = .instr (.ldR 3 13) ∧ decode 0x83D1 false = .instr (.or 3 13) ∧
    decode 0x83D2 false = .instr (.and 3 13) ∧ decode 0x83D3 false = .instr (.xor 3 13) ∧
    decode 0x83D4 false = .instr (.addR 3 13) ∧ decode 0x83D5 false = .instr (.sub 3 13) ∧
    decode 0x83D6 true = .instr (.shr 3 13) ∧ decode 0x83D7 true = .instr (.subn 3 13) ∧
    decode 0x83DE true = .instr (.shl 3 13) := by decide

theorem test_decode_index :
    decode 0xA9C3 false = .instr (.ldI 0x9C3) ∧ decode 0xB9C3 false = .instr (.jpV0 0x9C3) ∧
    decode 0xC9C3 true = .instr (.rnd 9 0xC3) := by decide

theorem test_decode_draw_input :
    decode 0xD12F true = .instr (.drw 1 2 15) ∧ decode 0xD121 false = .instr (.drw 1 2 1) ∧
    decode 0xD120 false = .instr (.drw0 1 2) ∧ decode 0xE79E false = .instr (.skp 7) ∧
    decode 0xE7A1 true = .instr (.sknp 7) := by decide

theorem test_decode_misc :
    decode 0xFC07 false = .instr (.ldVxDt 12) ∧ decode 0xFC0A false = .instr (.ldVxK 12) ∧
    decode 0xFC15 false = .instr (.ldDtVx 12) ∧ decode 0xFC18 false = .instr (.ldStVx 12) ∧
    decode 0xFC1E false = .instr (.addI 12) ∧ decode 0xFC29 true = .instr (.ldF 12) ∧
    decode 0xFC33 true = .instr (.ldBcd 12) ∧ decode 0xFC55 true = .instr (.ldMemVx 12) ∧
    decode 0xFC65 true = .instr (.ldVxMem 12) := by decide

/-- R109: words next to the families. -/
theorem test_decode_unknown :
    ([0x0000, 0x0123, 0x00BF, 0x00D0, 0x00E1, 0x00FA, 0x0100, 0x5121, 0x9011, 0x8008, 0x800D, 0x800F, 0xE000, 0xE09D,
      0xE0A0, 0xF000, 0xF031, 0xF0FF].all fun w => decode w false == .unknown && decode w true == .unknown) = true := by
  decide

/-- R110: the ends of the extended space, in both modes. -/
theorem test_decode_extended :
    ([0x00C0, 0x00CF, 0x00FB, 0x00FF, 0xF030, 0xFF75, 0xF085].all fun w =>
      decode w false == .unknown && decode w true == .refusedExt) = true ∧
    decode 0xD120 true = .refusedExt := by decide

theorem test_decodeTableWord :
    decodeTableWord 16 0x8127 = some (.subn 1 2) ∧ decodeTableWord 16 0xD120 = some (.drw0 1 2) ∧
    decodeTableWord 16 0x0000 = none := by decide

theorem test_decodeBytes_high_byte_first :
    decodeBytes [0x12, 0x34, 0x56] false = some (.instr (.jp 0x234), [0x56]) ∧ decodeBytes [0x12] false = none := by
  decide

/-! ### Fetch, Unknown words and refusals (95_test_vectors.md 2.1) -/

/-- DEC-2. -/
theorem test_dec2_unknown_word :
    nextSat (fun t => t.dfc == 1 && t.lastDf == some ⟨0x200, 0x0123⟩ && t.pc == 0x202#16 && t.fault.isNone && t.ran)
      (step (withWord 0x0123)) = true := by decide +kernel

/-- DEC-6; and by R240 the state is otherwise left unchanged, `ran` too. -/
theorem test_dec6_refused_word :
    (refusedWith (.extendedOpcode 0x00FF) (step (withWordExt 0x00FF)) &&
      (transact .cycle (withWordExt 0x00FF)).2.refusalMark && (transact .cycle (withWordExt 0x00FF)).2.pc == 0x200#16 &&
      (transact .cycle (withWordExt 0x00FF)).2.dfc == 0 && !(transact .cycle (withWordExt 0x00FF)).2.ran) = true := by decide +kernel

/-- DEC-9. -/
theorem test_dec9_odd_pc :
    twoSteps (faultIs .misalignedFetch 0x201 0 0x201 .mem) (withWord 0x1201) = true := by decide +kernel

/-- DEC-11's third cycle: the fetch at 0x1000. -/
theorem test_dec11_pc_outside_memory :
    nextSat (faultIs .outOfBoundsAccess 0x1000 0 0x1000 .mem) (step (State.reset.setPc 0x1000)) = true := by
  decide +kernel

/-- 40_control.md R132: with ODD_PC_FAULTS false, PC 0xFFF is a bounds fault at 0x1000. -/
theorem test_checkFetch_second_byte_outside :
    checkFetch oddAllowed 0xFFF = some ⟨.outOfBoundsAccess, 0xFFF, 0, 0x1000, .mem⟩ := by decide

/-- DEC-10: ODD_PC_FAULTS false. -/
theorem test_dec10_odd_pc_allowed :
    nextSat (fun t => t.dfc == 1 && t.pc == 0x203#16 && t.lastDf == some ⟨0x201, 0x0160⟩ && t.fault.isNone)
      (cycle (((State.afterReset false 0 : State oddAllowed).setPc 0x201).withFetchWord 16 0x0160)) = true := by decide +kernel

/-- R10, R221: a meaning given for EXT_OPCODES is taken; 0x00FD with one that only advances. -/
theorem test_ext_opcodes_given :
    nextSat (fun t => t.pc == 0x202#16)
      (cycle (withWordExt 0x00FD) (some fun _ s => .next s.advance)) = true := by decide +kernel

/-! ### Control (2.2) -/

/-- CTL-1. -/
theorem test_ctl1_cls :
    nextSat (fun t => pixels [] [(5, 5), (63, 31)] t && t.pc == 0x202#16)
      (step { withWord 0x00E0 with fb := ((Framebuffer.blank false).set 5 5 true).set 63 31 true }) = true := by
  decide +kernel

/-- CTL-2. -/
theorem test_ctl2_call :
    nextSat (fun t => t.stack == [0x202#16] && t.pc == 0x300#16) (step (withWord 0x2300)) = true := by decide +kernel

/-- CTL-5. -/
theorem test_ctl5_call_overflow :
    nextSat (fun t => faultIs .stackOverflow 0x200 0x2300 0 .mem t && t.stack.length == 16)
      (step { withWord 0x2300 with stack := List.replicate 16 0x202 }) = true := by decide +kernel

/-- CTL-3 with two entries: the last pushed is popped. -/
theorem test_ctl3_ret :
    nextSat (fun t => t.stack == [0x300#16] && t.pc == 0x202#16)
      (step { withWord 0x00EE with stack := [0x300, 0x202] }) = true := by decide +kernel

/-- CTL-4. -/
theorem test_ctl4_ret_underflow :
    nextSat (faultIs .stackUnderflow 0x200 0x00EE 0 .mem) (step (withWord 0x00EE)) = true := by decide +kernel

/-- CTL-6. -/
theorem test_ctl6_jp : nextSat (fun t => t.pc == 0x234#16) (step (withWord 0x1234)) = true := by decide +kernel

/-! ### Skips (2.3) -/

/-- SKP-1, SKP-2. -/
theorem test_skp1_seB :
    (nextSat (fun t => t.pc == 0x204#16) (step (regs [(3, 0x42)] (withWord 0x3342))) &&
      nextSat (fun t => t.pc == 0x202#16) (step (regs [(3, 0x41)] (withWord 0x3342)))) = true := by decide +kernel

/-- SKP-3, SKP-4. -/
theorem test_skp3_sneB :
    (nextSat (fun t => t.pc == 0x202#16) (step (regs [(3, 0x42)] (withWord 0x4342))) &&
      nextSat (fun t => t.pc == 0x204#16) (step (regs [(3, 0x41)] (withWord 0x4342)))) = true := by decide +kernel

/-- SKP-5, SKP-6. -/
theorem test_skp5_seR :
    (nextSat (fun t => t.pc == 0x204#16) (step (regs [(1, 0x10), (2, 0x10)] (withWord 0x5120))) &&
      nextSat (fun t => t.pc == 0x202#16) (step (regs [(1, 0x10), (2, 0x11)] (withWord 0x5120)))) = true := by
  decide +kernel

/-- SKP-8, SKP-9. -/
theorem test_skp8_sneR :
    (nextSat (fun t => t.pc == 0x204#16) (step (regs [(1, 0x10), (2, 0x11)] (withWord 0x9120))) &&
      nextSat (fun t => t.pc == 0x202#16) (step (regs [(1, 0x10)] (withWord 0x9110)))) = true := by decide +kernel

/-! ### Register operations (2.4) -/

/-- REG-2. -/
theorem test_reg2_ldB : regTest 0x6F07 [(15, 1)] [(15, 7)] = true := by decide +kernel

/-- REG-3. -/
theorem test_reg3_addB : regTest 0x7001 [(0, 0xFF), (15, 1)] [(0, 0), (15, 1)] = true := by decide +kernel

/-- REG-5. -/
theorem test_reg5_ldR : regTest 0x8120 [(2, 0x7A)] [(1, 0x7A), (2, 0x7A)] = true := by decide +kernel

/-- REG-6. -/
theorem test_reg6_or : regTest 0x8121 [(1, 0xF0), (2, 0x0F), (15, 1)] [(1, 0xFF), (15, 1)] = true := by decide +kernel

/-- REG-7. -/
theorem test_reg7_and : regTest 0x8122 [(1, 0xF0), (2, 0x3C)] [(1, 0x30)] = true := by decide +kernel

/-- REG-8. -/
theorem test_reg8_xor : regTest 0x8123 [(1, 0xF0), (2, 0x3C)] [(1, 0xCC)] = true := by decide +kernel

/-- REG-10, REG-14. -/
theorem test_reg10_addR :
    (regTest 0x8124 [(1, 0xC8), (2, 0x64)] [(1, 0x2C), (15, 1)] && regTest 0x8F14 [(15, 0xFF), (1, 1)] [(15, 1)]) = true := by
  decide +kernel

/-- REG-17, REG-19. -/
theorem test_reg17_sub :
    (regTest 0x8125 [(1, 3), (2, 5)] [(1, 0xFE), (15, 0)] &&
      regTest 0x8125 [(1, 0x33), (2, 0x33)] [(1, 0), (15, 1)]) = true := by decide +kernel

/-- REG-25, REG-26. -/
theorem test_reg25_shr :
    (regTest 0x8126 [(1, 4), (2, 0xFF)] [(1, 2), (2, 0xFF), (15, 0)] && regTest 0x8F06 [(15, 3)] [(15, 1)]) = true := by
  decide +kernel

/-- REG-29, REG-31. -/
theorem test_reg29_subn :
    (regTest 0x8127 [(1, 5), (2, 3)] [(1, 0xFE), (15, 0)] && regTest 0x8F27 [(15, 3), (2, 5)] [(15, 1)]) = true := by
  decide +kernel

/-- REG-32, REG-36. -/
theorem test_reg32_shl :
    (regTest 0x810E [(1, 0x81)] [(1, 2), (15, 1)] && regTest 0x8F0E [(15, 1)] [(15, 0)]) = true := by decide +kernel

/-! ### Index, indexed jump, random (2.5) -/

/-- IJR-1. -/
theorem test_ijr1_ldI :
    nextSat (fun t => t.i == 0x300#16 && t.pc == 0x202#16) (step (withWord 0xA300)) = true := by decide +kernel

/-- IJR-5, IJR-6. -/
theorem test_ijr5_jpV0 :
    (nextSat (fun t => t.pc == 0x10FE#16) (step (regs [(0, 0xFF)] (withWord 0xBFFF))) &&
      nextSat (fun t => t.pc == 0x300#16) (step (regs [(3, 4)] (withWord 0xB300)))) = true := by decide +kernel

/-- IJR-7, whatever the draw is. -/
theorem test_ijr7_rnd :
    exec (.rnd 1 0x0F) State.reset = .next
      { State.reset with v := State.reset.v.set 1 (Config.random8 0 &&& 0x0F), draws := 1, pc := 0x202 } := rfl

/-! ### Draw and input (2.6, 2.7) -/

/-- DRW-4: columns wrap. -/
theorem test_drw4_wraps :
    nextSat (fun t => pixels [(62, 1), (63, 1), (0, 1), (1, 1), (1, 2), (0, 3), (63, 4), (63, 5)] [(2, 1), (62, 2), (63, 3)] t && t.getV 15 == 0)
      (step (regs [(0, 62), (1, 1)] ((withWord 0xD015).setI 0x23))) = true := by decide +kernel

/-- DRW-2: the second draw erases and collides. -/
theorem test_drw2_erases :
    nextSat (fun t => nextSat (fun u => pixels [] [(0, 0), (3, 4)] u && u.getV 15 == 1) (step (t.setPc 0x200)))
      (step (withWord 0xD015)) = true := by decide +kernel

/-- R180 against R182 (log 13): with every pixel under the sprite set, the second draw unsets none, so VF is 0. -/
theorem test_r180_second_draw_of_set_pixels :
    nextSat (fun t => t.getV 15 == 1 && nextSat (fun u => u.getV 15 == 0 && pixels [(0, 0), (1, 0), (2, 0), (3, 0)] [] u)
        (step (t.setPc 0x200)))
      (step { withWord 0xD011 with
        fb := (((((Framebuffer.blank false).set 0 0 true).set 1 0 true).set 2 0 true).set 3 0 true) }) = true := by
  decide +kernel

/-- DRW-6: extended mode. -/
theorem test_drw6_extended :
    nextSat (pixels [(64, 0), (67, 0)] [(0, 0), (68, 0)]) (step (regs [(0, 0x40)] (withWordExt 0xD011))) = true := by
  decide +kernel

/-- DRW-10. -/
theorem test_drw10_fault :
    nextSat (faultIs .outOfBoundsAccess 0x200 0xD015 0x1000 .mem) (step ((withWord 0xD015).setI 0xFFE)) = true := by
  decide +kernel

/-- DRW-12, DRW-13. -/
theorem test_drw12_drw0 :
    (nextSat (fun t => t.getV 15 == 1 && t.pc == 0x202#16 && t.fault.isNone)
      (step (regs [(15, 1)] ((withWord 0xD010).setI 0xFFFF))) &&
      refusedWith (.extendedOpcode 0xD010) (step (withWordExt 0xD010))) = true := by decide +kernel

/-- KEY-1, KEY-5. -/
theorem test_key1_skp :
    (nextSat (fun t => t.pc == 0x204#16) (step (setKeyOp 5 true (regs [(2, 5)] (withWord 0xE29E)))) &&
      nextSat (faultIs .outOfBoundsAccess 0x200 0xE09E 0x10 .key) (step (regs [(0, 0x10)] (withWord 0xE09E)))) = true := by
  decide +kernel

/-- KEY-3, KEY-6. -/
theorem test_key3_sknp :
    (nextSat (fun t => t.pc == 0x202#16) (step (setKeyOp 5 true (regs [(2, 5)] (withWord 0xE2A1)))) &&
      nextSat (faultIs .outOfBoundsAccess 0x200 0xE0A1 0xFF .key) (step (regs [(0, 0xFF)] (withWord 0xE0A1)))) = true := by
  decide +kernel

/-- KEY-7, W10. -/
theorem test_key7_ldVxK :
    (nextSat (fun t => t.getV 5 == 3 && t.pc == 0x202#16) (step (setKeyOp 10 true (setKeyOp 3 true (withWord 0xF50A)))) &&
      nextSat (fun t => t.getV 5 == 0 && t.pc == 0x200#16) (step (withWord 0xF50A))) = true := by decide +kernel

/-! ### Misc (2.8) -/

/-- MSC-1 to MSC-3. -/
theorem test_msc1_timers :
    (nextSat (fun t => t.getV 3 == 0x3C && t.dt == 0x3C) (step ((withWord 0xF307).setDt 0x3C)) &&
      nextSat (fun t => t.dt == 0x3C && t.st == 0) (step (regs [(3, 0x3C)] (withWord 0xF315))) &&
      nextSat (fun t => t.st == 0x0A && t.dt == 0) (step (regs [(3, 0x0A)] (withWord 0xF318)))) = true := by
  decide +kernel

/-- MSC-6, MSC-7. -/
theorem test_msc6_addI :
    (nextSat (fun t => t.i == 0x1000#16 && t.getV 15 == 0) (step (regs [(1, 1)] ((withWord 0xF11E).setI 0xFFF))) &&
      nextSat (fun t => t.i == 0#16) (step (regs [(0, 1)] ((withWord 0xF01E).setI 0xFFFF)))) = true := by decide +kernel

/-- MSC-8, MSC-9. -/
theorem test_msc8_ldF :
    (nextSat (fun t => t.i == 0x23#16) (step (regs [(4, 7)] (withWord 0xF429))) &&
      nextSat (fun t => t.i == 0x32#16) (step (regs [(0, 0x1A)] (withWord 0xF029)))) = true := by decide +kernel

/-- MSC-12, MSC-13. -/
theorem test_msc12_bcd :
    (nextSat (fun t => t.readBytes 0xFFC 5 == [0, 2, 5, 5, 0] && t.pc == 0x202#16)
      (step (regs [(0, 0xFF)] ((withWord 0xF033).setI 0xFFD))) &&
      nextSat (fun t => faultIs .outOfBoundsAccess 0x200 0xF033 0x1000 .mem t && t.readBytes 0xFFE 2 == [0, 0])
      (step (regs [(0, 0xFF)] ((withWord 0xF033).setI 0xFFE)))) = true := by decide +kernel

/-- MSC-14, MSC-17. -/
theorem test_msc14_store :
    (nextSat (fun t => t.readBytes 0x400 4 == [0x11, 0x22, 0x33, 0] && t.i == 0x400#16)
      (step (regs [(0, 0x11), (1, 0x22), (2, 0x33), (3, 0x44)] ((withWord 0xF255).setI 0x400))) &&
      nextSat (fun t => faultIs .outOfBoundsAccess 0x200 0xFF55 0x1000 .mem t && t.readByte 0xFFF == 0)
      (step (regs [(14, 0x11)] ((withWord 0xFF55).setI 0xFF1)))) = true := by decide +kernel

/-- MSC-20, MSC-21. -/
theorem test_msc20_load :
    (regTest 0xF465 [(5, 0x77)] [(0, 0xF0), (1, 0x90), (2, 0x90), (3, 0x90), (4, 0xF0), (5, 0x77)] &&
      nextSat (fun t => faultIs .outOfBoundsAccess 0x200 0xF065 0x1000 .mem t && t.getV 0 == 0x12)
      (step (regs [(0, 0x12)] ((withWord 0xF065).setI 0x1000)))) = true := by decide +kernel

/-- R73: a store into the reserved area is performed. -/
theorem test_r73_store_reserved :
    (isReserved .hardware 0x000 && isReserved .hardware 0x1FF && !isReserved .hardware 0x200 &&
      nextSat (fun t => t.readByte 0 == 0x11 && t.fault.isNone) (step (regs [(0, 0x11)] (withWord 0xF055)))) = true := by
  decide +kernel

/-! ### Host operations (2.9, W4, W8) -/

/-- HST-3, HST-10. -/
theorem test_hst3_reset :
    (transact .reset (setExtendedModeOp true (regs [(5, 9)] (withWord 0x1200)))).2 = State.afterReset true 0 := by
  decide +kernel

/-- HST-6, HST-9. -/
theorem test_hst9_load :
    (transact (.load (some [0x00, 0xE0])) { State.reset with ran := true }).1 = .refused .loadAfterRun ∧
    (runOps [.load (some [0xAA, 0xBB, 0xCC]), .load (some [0x11])] State.reset).readBytes 0x1FF 5 =
      [0, 0x11, 0xBB, 0xCC, 0] := by decide +kernel

/-- W4. -/
theorem test_w4_ticks :
    (runOps [.tickTimers, .tickTimers, .tickTimers] (State.reset.setDt 5)).dt = 2 ∧
    (runOps [.tickTimers] State.reset).st = 0 := by decide +kernel

/-- HST-1: what the host reads of a new instance. -/
theorem test_hst1_view :
    (hostView State.reset).width = 64 ∧ (hostView State.reset).height = 32 ∧ (hostView State.reset).fault = none ∧
    (hostView State.reset).pixels.length = 32 := by decide +kernel

/-! ### The configuration (R10, R52): the rules at other values of the parameters they name -/

/-- LOAD_ADDR, FONT_BASE, FONT_DATA and MAX_IMAGE. -/
theorem test_other_reset_and_load :
    (otherWith 0x00E0).pc = 0x100 ∧ (otherWith 0x00E0).readBytes 0x0F 4 = [0, 0xC0, 0xC0, 0] ∧
    (transact (.load (some (List.replicate 0x20 1))) (State.afterReset false 0 : State otherBlock)).1 = .loaded true ∧
    (transact (.load (some (List.replicate 0x21 1))) (State.afterReset false 0 : State otherBlock)).1 = .loaded false := by
  decide +kernel

/-- STACK_DEPTH. -/
theorem test_other_stack_depth :
    nextSat (faultIs .stackOverflow 0x100 0x2100 0 .mem) (cycle { otherWith 0x2100 with stack := [0, 0] }) = true := by
  decide +kernel

/-- MEM_SIZE, at a data access and at a fetch. -/
theorem test_other_mem_size :
    (nextSat (faultIs .outOfBoundsAccess 0x100 0xF055 0x120 .mem) (cycle ((otherWith 0xF055).setI 0x120)) &&
      nextSat (faultIs .outOfBoundsAccess 0x120 0 0x120 .mem) (cycle ((otherWith 0).setPc 0x120))) = true := by
  decide +kernel

/-- FB_STD and FONT_STRIDE: a glyph of 2 bytes wraps on a grid of 16 by 16. -/
theorem test_other_draw :
    (nextSat (pixels [(15, 15), (0, 15), (15, 0), (0, 0)] [(1, 0), (14, 15)])
      (cycle (regs [(0, 31), (1, 15)] ((otherWith 0xD012).setI 0x10))) &&
      nextSat (fun t => t.i == 0x16#16) (cycle (regs [(0, 3)] (otherWith 0xF029)))) = true := by decide +kernel

/-- V_WIDTH: ADD_R carries out of 4 bits, SHL drops bit 3. -/
theorem test_narrow_vWidth :
    (nextSat (regsAre [(1, 1), (15, 1)]) (cycle (regs [(1, 9), (2, 8)] (narrowWith 0x8124))) &&
      nextSat (regsAre [(1, 2), (15, 1)]) (cycle (regs [(1, 9)] (narrowWith 0x810E)))) = true := by decide +kernel

/-- NUM_V, NUM_KEYS: the sizes of the register file and the latch, and the first index that is no key. -/
theorem test_narrow_counts :
    ((narrowWith 0).v.toList.length == 20 && (narrowWith 0).keys.toList.length == 4 &&
      nextSat (faultIs .outOfBoundsAccess 0x200 0xE19E 4 .key) (cycle (regs [(1, 4)] (narrowWith 0xE19E)))) = true := by
  decide +kernel

/-- I_WIDTH, TIMER_WIDTH, PC_WIDTH: what is written is cut to the register. -/
theorem test_narrow_registers :
    (nextSat (fun t => t.i == 0#12) (cycle (regs [(1, 1)] ((narrowWith 0xF11E).setI 0xFFF))) &&
      nextSat (fun t => t.dt == 3#2) (cycle (regs [(1, 7)] (narrowWith 0xF115))) &&
      nextSat (fun t => t.pc == 0x200#11) (cycle (narrowWith 0x1A00))) = true := by decide +kernel

/-- STACK_ENTRY_WIDTH: the address CALL pushes is cut to 8 bits. DFC_WIDTH: the counter saturates at 3. -/
theorem test_narrow_stack_and_dfc :
    (nextSat (fun t => t.stack == [0x02#8]) (cycle (narrowWith 0x2300)) &&
      nextSat (fun t => t.dfc == 3#2 && t.pc == 0x202#11) (cycle { narrowWith 0x0000 with dfc := 3 })) = true := by
  decide +kernel

/-- IJR-7 at RANDOM's draw 0xA7. -/
theorem test_other_random :
    nextSat (fun t => t.getV 1 == 0x07) (cycle (otherWith 0xC10F)) = true := by decide +kernel

/-- IJR-9: every byte is a possible draw. -/
theorem test_every_draw_possible (r : Byte) :
    ∃ c : Params, ∀ s : State c, (execRnd 1 0xFF s) = .next ((s.countDraw.setV 1 (zext (r &&& 0xFF))).advance) :=
  ⟨{ Params.hardware with random8 := fun _ => r }, fun _ => rfl⟩

/-! ### Witnesses: a state and operands that meet the hypotheses of each statement, its clauses at their edges -/

theorem witness_DecodeEncodeRoundTrip :
    (WellFormed (.drw 15 0 1) ∧ ∀ x y, Instr.drw 15 0 1 ≠ .drw0 x y) ∧
    (WellFormed (.drw 0 15 15) ∧ ∀ x y, Instr.drw 0 15 15 ≠ .drw0 x y) ∧ WellFormed (.drw0 0 15) := by
  refine ⟨⟨by decide, ?_⟩, ⟨by decide, ?_⟩, by decide⟩ <;> intro x y h <;> cases h

theorem witness_EncodeDecodeRoundTrip :
    decode 0xD1F1 true = .instr (.drw 1 15 1) ∧ decode 0xD1F0 false = .instr (.drw0 1 15) := by decide

theorem witness_DispatchTable :
    (0xD1F0 : Word).toNat = 4096 * 0xD + (0x1F0 : BitVec 12).toNat ∧
    (0x1F0 : BitVec 12).toNat = 256 * (1 : Reg).val + 0xF0 ∧ 0xF0 = 16 * (15 : Reg).val + 0 ∧ 0 < 16 ∧
    (0xFFFF : Word).toNat = 4096 * 0xF + (0xFFF : BitVec 12).toNat ∧
    (0xFFF : BitVec 12).toNat = 256 * (15 : Reg).val + 0xFF ∧ 0xFF = 16 * (15 : Reg).val + 15 ∧ 15 < 16 := by decide

theorem witness_ExtendedSpace : decode 0x00C0 true = .refusedExt ∧ decode 0xDFF0 true = .refusedExt := by decide

theorem witness_StepRunsDecodedInstruction :
    let s := withWord 0x6005
    let u := (State.reset.setPc 0xFFE).withFetchWord 16 0x1FFE
    (s.fault = none ∧ s.refusalMark = false ∧ s.pc.toNat % 2 = 0 ∧ s.pc.toNat < 4096 ∧
      decode (BitVec.ofNat 16 (256 * (s.readByte s.pc.toNat).toNat + (s.readByte (s.pc.toNat + 1)).toNat))
        s.fb.activeExt = .instr (.ldB 0 5)) ∧
    (u.fault = none ∧ u.refusalMark = false ∧ u.pc.toNat % 2 = 0 ∧ u.pc.toNat < 4096 ∧
      decode (BitVec.ofNat 16 (256 * (u.readByte u.pc.toNat).toNat + (u.readByte (u.pc.toNat + 1)).toNat))
        u.fb.activeExt = .instr (.jp 0xFFE)) := by decide +kernel

theorem witness_UnknownWordIsDecodeFault :
    (withWord 0x0000).CanFetch ∧ decode (withWord 0x0000).fetchWord (withWord 0x0000).fb.activeExt = .unknown ∧
    (let s : State := { withWord 0xF0FF with dfc := 0xFFFFFFFF }
     s.CanFetch ∧ decode s.fetchWord s.fb.activeExt = .unknown) := by
  unfold State.CanFetch; decide +kernel

theorem witness_RefusedWordSetsMark :
    (withWordExt 0xD000).CanFetch ∧
    decode (withWordExt 0xD000).fetchWord (withWordExt 0xD000).fb.activeExt = .refusedExt := by
  unfold State.CanFetch; decide +kernel

theorem witness_RefusalMarkStays :
    (markRefused State.reset).refusalMark = true ∧ (markRefused State.reset).fault = none := by decide +kernel

theorem witness_FetchCheckFaults :
    State.reset.fault = none ∧ State.reset.refusalMark = false ∧
    checkFetch .hardware ((State.reset.setPc 0x1001).pc) =
      some ⟨.misalignedFetch, 0x1001, 0, 0x1001, .mem⟩ ∧
    checkFetch .hardware ((State.reset.setPc 0xFFF).pc) = some ⟨.misalignedFetch, 0xFFF, 0, 0xFFF, .mem⟩ ∧
    checkFetch .hardware ((State.reset.setPc 0x1000).pc) = some ⟨.outOfBoundsAccess, 0x1000, 0, 0x1000, .mem⟩ ∧
    checkFetch oddAllowed 0xFFF = some ⟨.outOfBoundsAccess, 0xFFF, 0, 0x1000, .mem⟩ ∧
    checkFetch .hardware 0xFFE = none := by decide +kernel

/-- A state with a latched fault (CTL-4). -/
def faulted : State := State.reset.faultedWith .stackUnderflow 0x00EE 0 .mem

theorem witness_LatchedFaultHasNoStep :
    faulted.fault = some ⟨.stackUnderflow, 0x200, 0x00EE, 0, .mem⟩ ∧ (.tickTimers : HostOp) ≠ .reset := by decide +kernel

theorem witness_FaultEntryIsPrecise :
    (∃ t r, step (withWord 0x00EE) = .next t ∧ t.fault = some r) ∧
    (∃ t r, step (State.reset.setPc 0x201) = .next t ∧ t.fault = some r) :=
  ⟨⟨_, _, rfl, rfl⟩, ⟨_, _, rfl, rfl⟩⟩

/-- One faulting execution of each instruction that can fault, at the first operand that faults. -/
theorem witness_OnlyTheseInstructionsFault :
    (∃ t r, exec .ret State.reset = .next t ∧ t.fault = some r) ∧
    (∃ t r, exec (.call 0x300) { State.reset with stack := List.replicate 16 0x202 } = .next t ∧ t.fault = some r) ∧
    (∃ t r, exec (.drw 0 0 1) (State.reset.setI 0x1000) = .next t ∧ t.fault = some r) ∧
    (∃ t r, exec (.ldBcd 0) (State.reset.setI 0xFFE) = .next t ∧ t.fault = some r) ∧
    (∃ t r, exec (.ldMemVx 0) (State.reset.setI 0x1000) = .next t ∧ t.fault = some r) ∧
    (∃ t r, exec (.ldVxMem 0) (State.reset.setI 0x1000) = .next t ∧ t.fault = some r) ∧
    (∃ t r, exec (.skp 0) (State.reset.setV 0 16) = .next t ∧ t.fault = some r) ∧
    (∃ t r, exec (.sknp 0) (State.reset.setV 0 16) = .next t ∧ t.fault = some r) := by
  refine ⟨⟨_, _, rfl, rfl⟩, ⟨_, _, rfl, rfl⟩, ⟨_, _, rfl, rfl⟩, ⟨_, _, rfl, rfl⟩, ⟨_, _, rfl, rfl⟩, ⟨_, _, rfl, rfl⟩,
    ⟨_, _, rfl, rfl⟩, ⟨_, _, rfl, rfl⟩⟩

theorem witness_NextPcOfCompletedInstruction :
    (∃ t, exec (.jpV0 0xFFF) (State.reset.setV 0 0xFF) = .next t ∧ t.fault = none) ∧
    (∃ t, exec (.call 0xFFF) State.reset = .next t ∧ t.fault = none) ∧
    (∃ t, exec .ret { State.reset with stack := [0x1000] } = .next t ∧ t.fault = none) ∧
    (∃ t, exec (.skp 0) (State.reset.setV 0 15) = .next t ∧ t.fault = none) ∧
    (∃ t, exec (.ldVxK 0) State.reset = .next t ∧ t.fault = none) ∧
    (∃ t, exec (.ldI 0) State.reset = .next t ∧ t.fault = none) :=
  ⟨⟨_, rfl, rfl⟩, ⟨_, rfl, rfl⟩, ⟨_, rfl, rfl⟩, ⟨_, rfl, rfl⟩, ⟨_, rfl, rfl⟩, ⟨_, rfl, rfl⟩⟩

theorem witness_Inv : State.reset.Inv where
  mem_wf := by decide
  stack_len := by decide
  stack_entries := by simp [State.reset, State.afterReset]
  pc_bound := by decide
  dfc_log := by decide
  fault_pc := by simp [State.reset, State.afterReset]
  fault_space := by simp [State.reset, State.afterReset]

theorem witness_StepKeepsInv : State.reset.Inv ∧ ∃ t, step State.reset = .next t := ⟨witness_Inv, _, rfl⟩

theorem witness_HostOperationsKeepInv : State.reset.Inv := witness_Inv

theorem witness_host_operations :
    (.cycle : HostOp) ≠ .reset ∧ (∀ k b, (.cycle : HostOp) ≠ .setKey k b) ∧ ∀ b, (.cycle : HostOp) ≠ .setExtendedMode b := by
  simp

theorem witness_RegisterWriters :
    (∃ t, exec (.ldB 15 7) State.reset = .next t ∧ t.getV 15 ≠ State.reset.getV 15) ∧
    (∃ t, exec (.addR 0 0) (State.reset.setV 0 0x80) = .next t ∧ t.getV 15 ≠ (State.reset.setV 0 0x80).getV 15) ∧
    (∃ t, exec (.drw 0 0 1) (State.reset.setV 15 3) = .next t ∧ t.getV 15 ≠ (State.reset.setV 15 3).getV 15) ∧
    (∃ t, exec (.ldVxMem 15) State.reset = .next t ∧ t.getV 15 ≠ State.reset.getV 15) ∧
    (∃ t, exec (.ldVxK 0) (setKeyOp 15 true State.reset) = .next t ∧
      t.getV 0 ≠ (setKeyOp 15 true State.reset).getV 0) := by
  refine ⟨⟨_, rfl, ?_⟩, ⟨_, rfl, ?_⟩, ⟨_, rfl, ?_⟩, ⟨_, rfl, ?_⟩, ⟨_, rfl, ?_⟩⟩ <;> decide +kernel

theorem witness_IndexTimerStackWriters :
    (∃ t, exec (.ldI 1) State.reset = .next t ∧ t.i ≠ State.reset.i) ∧
    (∃ t, exec (.ldDtVx 0) (State.reset.setV 0 1) = .next t ∧ t.dt ≠ (State.reset.setV 0 1).dt) ∧
    (∃ t, exec (.ldStVx 0) (State.reset.setV 0 1) = .next t ∧ t.st ≠ (State.reset.setV 0 1).st) ∧
    (∃ t, exec (.call 0) State.reset = .next t ∧ t.stack ≠ State.reset.stack) := by
  refine ⟨⟨_, rfl, ?_⟩, ⟨_, rfl, ?_⟩, ⟨_, rfl, ?_⟩, ⟨_, rfl, ?_⟩⟩ <;> decide +kernel

theorem witness_FramebufferWriters :
    ∃ t, exec (.drw 0 0 1) State.reset = .next t ∧ t.fb ≠ State.reset.fb := by
  refine ⟨_, rfl, ?_⟩; decide +kernel

theorem witness_MemoryWriters :
    Memory.wf ((State.reset.setI 0xFFD).setV 15 99).mem = true ∧
    (∃ t, exec (.ldBcd 15) ((State.reset.setI 0xFFD).setV 15 99) = .next t ∧
      t.readByte 0xFFF ≠ ((State.reset.setI 0xFFD).setV 15 99).readByte 0xFFF) ∧
    (∃ t, exec (.ldMemVx 15) ((State.reset.setI 0xFF0).setV 15 99) = .next t ∧
      t.readByte 0xFFF ≠ ((State.reset.setI 0xFF0).setV 15 99).readByte 0xFFF) := by
  refine ⟨by decide +kernel, ⟨_, rfl, ?_⟩, ⟨_, rfl, ?_⟩⟩ <;> decide +kernel

theorem witness_BookkeepingFrame :
    (∃ t, exec .ret State.reset = .next t ∧ t.ran ≠ State.reset.ran) ∧
    (∃ t, exec .cls faulted = .next t ∧ faulted.ran = true ∧ faulted.fault ≠ none) ∧
    (∃ t, exec (.rnd 0 0) State.reset = .next t ∧ t.draws ≠ State.reset.draws) := by
  refine ⟨⟨_, rfl, ?_⟩, ⟨_, rfl, ?_, ?_⟩, ⟨_, rfl, ?_⟩⟩ <;> decide +kernel

theorem witness_RetPopsOrUnderflows :
    ({ State.reset with stack := [0x202, 0x1000] } : State).stack = [0x202] ++ [0x1000] ∧ State.reset.stack = [] := by
  decide

theorem witness_CallPushesOrOverflows :
    ({ State.reset with stack := List.replicate 15 0x202 } : State).stack.length < 16 ∧
    ({ State.reset with stack := List.replicate 16 0x202 } : State).stack.length = 16 := by decide

theorem witness_UnsignedArithmeticLaw_FlagWrittenLast : (14 : Reg) ≠ 15 ∧ (0 : Reg) ≠ 15 := by decide

/-- The corner pixels of a sprite that wraps at both edges, and I at both sides of the last address that fits. -/
theorem witness_DrwXorsSprite :
    (15 : Fin 16) ≠ 0 ∧ (State.reset.setI (4096 - 15)).i.toNat + (15 : Fin 16).val ≤ 4096 ∧
    4096 < (State.reset.setI (4096 - 14)).i.toNat + (15 : Fin 16).val ∧
    (regs [(0, 63), (1, 31)] State.reset).SpriteCovers 0 1 5 63 31 ∧
    (regs [(0, 63), (1, 31)] State.reset).SpriteCovers 0 1 5 2 3 ∧
    ¬ (regs [(0, 63), (1, 31)] State.reset).SpriteCovers 0 1 5 62 31 := by
  refine ⟨by decide, by decide, by decide, ⟨0, 0, by decide +kernel⟩, ⟨4, 3, by decide +kernel⟩, ?_⟩
  rintro ⟨r, b, -, hb, -, hx, -⟩
  have hw : (regs [(0, 63), (1, 31)] State.reset).fb.width = 64 := by decide +kernel
  have hv : ((regs [(0, 63), (1, 31)] State.reset).getV 0).toNat = 63 := by decide +kernel
  rw [hw, hv] at hx
  omega

theorem witness_DrawTwiceRestores :
    (14 : Reg) ≠ 15 ∧ (0 : Reg) ≠ 15 ∧ (15 : Fin 16) ≠ 0 ∧
    (State.reset.setI (4096 - 15)).i.toNat + (15 : Fin 16).val ≤ 4096 := by decide

/-- Both cases of the first draw's VF, with a sprite that has a 1 bit. -/
theorem witness_DrawTwiceRestores_firstFlag :
    (∃ t, exec (.drw 0 1 1) State.reset = .next t ∧ t.getV 15 = 0) ∧
    (∃ t, exec (.drw 0 1 1) { State.reset with fb := (Framebuffer.blank false).set 0 0 true } = .next t ∧
      t.getV 15 = 1) ∧
    (State.reset.readByte (State.reset.i.toNat + 0)).getLsbD 7 = true := by
  refine ⟨⟨_, rfl, ?_⟩, ⟨_, rfl, ?_⟩, ?_⟩ <;> decide +kernel

theorem witness_DrawOfNoRows :
    State.reset.fb.activeExt = false ∧ (State.afterReset true 0 : State).fb.activeExt = true := by decide

theorem witness_SkipOnKey :
    (15 : Key).val = ((State.reset.setV 0 15).getV 0).toNat ∧ (0 : Key).val = (State.reset.getV 0).toNat ∧
    15 < ((State.reset.setV 0 16).getV 0).toNat := by decide

theorem witness_WaitForKey :
    (∀ k : Key, State.reset.keys[k] = false) ∧
    (let s := setKeyOp 15 true State.reset
     s.keys[(15 : Key)] = true ∧ ∀ j : Key, j < 15 → s.keys[j] = false) ∧
    (let s := setKeyOp 15 true (setKeyOp 0 true State.reset)
     s.keys[(0 : Key)] = true ∧ ∀ j : Key, j < 0 → s.keys[j] = false) := by decide +kernel

theorem witness_BcdDigits :
    Memory.wf State.reset.mem = true ∧ (State.reset.setI 0xFFD).i.toNat + 2 < 4096 ∧
    4096 ≤ (State.reset.setI 0xFFE).i.toNat + 2 := by decide

theorem witness_RegistersStored_RegistersLoaded :
    Memory.wf State.reset.mem = true ∧ (State.reset.setI 0xFF0).i.toNat + (15 : Reg).val < 4096 ∧
    4096 ≤ (State.reset.setI 0xFF1).i.toNat + (15 : Reg).val ∧ (0 : Reg) ≤ 15 := by decide

theorem witness_CreationIsReset : (withWord 0x1200).modeExt = false := by decide

/-- For the statements whose only premises are ranges: CLS and reset (a pixel, a byte), the font. -/
theorem witness_ranges :
    63 < State.reset.fb.width ∧ 31 < State.reset.fb.height ∧ 4095 < 4096 ∧ 80 ≤ 80 := by decide

theorem witness_LoadCopiesImage :
    Memory.wf State.reset.mem = true ∧ State.reset.ran = false ∧ ({ State.reset with ran := true } : State).ran = true ∧
    (List.replicate 3584 (0x12 : Byte)).length ≤ 3584 ∧ 3584 < (List.replicate 3585 (0x12 : Byte)).length := by
  rw [List.length_replicate, List.length_replicate]
  decide

theorem witness_ParkedIsFixedPoint : (withWord 0x1200).Parked :=
  ⟨by unfold State.CanFetch; decide +kernel, 0x200, by decide +kernel, by decide⟩

theorem witness_StoreSeenByNextFetch :
    let s := State.reset.setI 0x202
    Memory.wf s.mem = true ∧ s.i = s.pc + 2 ∧ 1 ≤ (1 : Reg).val ∧ s.i.toNat + (1 : Reg).val < 4096 := by decide

end Sys2Proof.Tests
end

/-! What one instruction can do, said once for all 35: the faults it can raise (`Raises`) and the states it can complete
in (`Completes`), each tied to `exec` by `exec_next`. The frames, the next PC and the invariant follow by cases on
these two relations. -/

namespace Sys2Proof.Machine

/-! ### The outcomes of an instruction -/

/-- The records an instruction can latch, each under the check that raises it (R231, R239). -/
inductive Raises (s : State) : Instr → FaultRecord → Prop
  | ret (hs : s.stack = []) : Raises s .ret (stackFault .stackUnderflow (encode .ret) s)
  | call (nnn : BitVec 12) (hs : 16 ≤ s.stack.length) :
      Raises s (.call nnn) (stackFault .stackOverflow (encode (.call nnn)) s)
  | drw (x y : Reg) (n : Fin 16) (hm : 4096 < s.base + n.val) :
      Raises s (.drw x y n) (memFault (encode (.drw x y n)) (max s.base 4096) s)
  | skp (x : Reg) (hk : 16 ≤ (s.getV x).toNat) : Raises s (.skp x) (keyFault (encode (.skp x)) (s.getV x) s)
  | sknp (x : Reg) (hk : 16 ≤ (s.getV x).toNat) : Raises s (.sknp x) (keyFault (encode (.sknp x)) (s.getV x) s)
  | ldBcd (x : Reg) (hm : 4096 < s.base + 3) :
      Raises s (.ldBcd x) (memFault (encode (.ldBcd x)) (max s.base 4096) s)
  | ldMemVx (x : Reg) (hm : 4096 < s.base + (x.val + 1)) :
      Raises s (.ldMemVx x) (memFault (encode (.ldMemVx x)) (max s.base 4096) s)
  | ldVxMem (x : Reg) (hm : 4096 < s.base + (x.val + 1)) :
      Raises s (.ldVxMem x) (memFault (encode (.ldVxMem x)) (max s.base 4096) s)

/-- The states an instruction can complete in, with the check it passed. Where only the place that is written matters
to a frame, the value written is any: a byte `b`, a flag `f`, an index `a`, a drawing `d`. -/
inductive Completes (s : State) : Instr → State → Prop
  | cls : Completes s .cls (s.setFb s.fb.clear).advance
  | ret {rest : List Addr} {a : Addr} (hs : s.stack = rest ++ [a]) : Completes s .ret ({ s with stack := rest }.setPc a)
  | jp (nnn : BitVec 12) : Completes s (.jp nnn) (s.setPc (zextNnn nnn))
  | call (nnn : BitVec 12) (hs : s.stack.length < 16) :
      Completes s (.call nnn) ({ s with stack := s.stack ++ [s.pc + 2] }.setPc (zextNnn nnn))
  | seB (x : Reg) (nn : Byte) (f : Bool) : Completes s (.seB x nn) (s.skipIf f)
  | sneB (x : Reg) (nn : Byte) (f : Bool) : Completes s (.sneB x nn) (s.skipIf f)
  | seR (x y : Reg) (f : Bool) : Completes s (.seR x y) (s.skipIf f)
  | sneR (x y : Reg) (f : Bool) : Completes s (.sneR x y) (s.skipIf f)
  | skp (x : Reg) (f : Bool) : Completes s (.skp x) (s.skipIf f)
  | sknp (x : Reg) (f : Bool) : Completes s (.sknp x) (s.skipIf f)
  | ldB (x : Reg) (nn b : Byte) : Completes s (.ldB x nn) (s.setV x b).advance
  | addB (x : Reg) (nn b : Byte) : Completes s (.addB x nn) (s.setV x b).advance
  | ldR (x y : Reg) (b : Byte) : Completes s (.ldR x y) (s.setV x b).advance
  | or (x y : Reg) (b : Byte) : Completes s (.or x y) (s.setV x b).advance
  | and (x y : Reg) (b : Byte) : Completes s (.and x y) (s.setV x b).advance
  | xor (x y : Reg) (b : Byte) : Completes s (.xor x y) (s.setV x b).advance
  | addR (x y : Reg) (b : Byte) (f : Bool) : Completes s (.addR x y) (s.setVFlag x b f).advance
  | sub (x y : Reg) (b : Byte) (f : Bool) : Completes s (.sub x y) (s.setVFlag x b f).advance
  | shr (x y : Reg) (b : Byte) (f : Bool) : Completes s (.shr x y) (s.setVFlag x b f).advance
  | subn (x y : Reg) (b : Byte) (f : Bool) : Completes s (.subn x y) (s.setVFlag x b f).advance
  | shl (x y : Reg) (b : Byte) (f : Bool) : Completes s (.shl x y) (s.setVFlag x b f).advance
  | ldI (nnn : BitVec 12) (a : Addr) : Completes s (.ldI nnn) (s.setI a).advance
  | addI (x : Reg) (a : Addr) : Completes s (.addI x) (s.setI a).advance
  | ldF (x : Reg) (a : Addr) : Completes s (.ldF x) (s.setI a).advance
  | jpV0 (nnn : BitVec 12) : Completes s (.jpV0 nnn) (s.setPc (zextNnn nnn + zext (s.getV 0)))
  | rnd (x : Reg) (nn b : Byte) : Completes s (.rnd x nn) (s.countDraw.setV x b).advance
  | drw (x y : Reg) (n : Fin 16) (d : Drawing) (hm : s.base + n.val ≤ 4096) (hd : d.1.activeExt = s.fb.activeExt) :
      Completes s (.drw x y n) ((s.setFb d.1).setV vf (flagByte d.2)).advance
  | drw0 (x y : Reg) (hm : s.activeExt = false) : Completes s (.drw0 x y) s.advance
  | ldVxDt (x : Reg) (b : Byte) : Completes s (.ldVxDt x) (s.setV x b).advance
  | ldVxKWait (x : Reg) (hk : ∀ k : Key, s.keys[k] = false) : Completes s (.ldVxK x) s
  | ldVxK (x : Reg) (b : Byte) {k : Key} (hk : s.keys[k] = true) : Completes s (.ldVxK x) (s.setV x b).advance
  | ldDtVx (x : Reg) : Completes s (.ldDtVx x) (s.setDt (s.getV x)).advance
  | ldStVx (x : Reg) : Completes s (.ldStVx x) (s.setSt (s.getV x)).advance
  | ldBcd (x : Reg) (b₀ b₁ b₂ : Byte) (hm : s.base + 3 ≤ 4096) :
      Completes s (.ldBcd x)
        (((s.writeByte s.base b₀).writeByte (s.base + 1) b₁).writeByte (s.base + 2) b₂).advance
  | ldMemVx (x : Reg) (hm : s.base + (x.val + 1) ≤ 4096) :
      Completes s (.ldMemVx x) { s with mem := (s.storeRegs s.base (x.val + 1)).mem }.advance
  | ldVxMem (x : Reg) (hm : s.base + (x.val + 1) ≤ 4096) :
      Completes s (.ldVxMem x) { s with v := (s.loadRegs s.base (x.val + 1)).v }.advance

/-- A sprite draw keeps the active mode, whatever it draws (R180, R224). -/
theorem activeExt_drawSprite (s : State) (vx vy a : Nat) (n : Fin 16) :
    (drawSprite s.fb vx vy (s.readBytes a n)).1.activeExt = s.fb.activeExt :=
  (drawSprite_draws s.fb vx vy (by simp [State.readBytes])).mode

/-- An instruction that answers a next state either latches a fault it can raise, and writes nothing else but `ran`, or
completes. -/
theorem exec_next {i : Instr} {s t : State} (h : exec i s = .next t) :
    (∃ r, Raises s i r ∧ t = { s with fault := some r, ran := true }) ∨ Completes s i t := by
  cases i with
  | ret =>
    simp only [exec, execRet] at h
    obtain ⟨hs, rfl⟩ | ⟨rest, a, hs, hk⟩ := popThen_next h
    · exact .inl ⟨_, .ret hs, rfl⟩
    · cases hk
      exact .inr (.ret hs)
  | call nnn =>
    simp only [exec, execCall] at h
    obtain ⟨hs, rfl⟩ | ⟨hs, hk⟩ := pushThen_next h
    · exact .inl ⟨_, .call nnn hs, rfl⟩
    · cases hk
      exact .inr (.call nnn hs)
  | drw x y n =>
    obtain ⟨hm, rfl⟩ | ⟨hm, hk⟩ := checkMem_next h
    · exact .inl ⟨_, .drw x y n hm, rfl⟩
    · cases hk
      exact .inr (.drw x y n _ hm (activeExt_drawSprite s _ _ _ n))
  | drw0 x y =>
    simp only [exec, execDrw0] at h
    split at h
    · cases h
    · rename_i hm
      cases h
      exact .inr (.drw0 x y (Bool.eq_false_of_not_eq_true hm))
  | skp x =>
    simp only [exec, execSkp] at h
    obtain ⟨hk, rfl⟩ | ⟨k, -, hk⟩ := checkKey_next h
    · exact .inl ⟨_, .skp x hk, rfl⟩
    · cases hk
      exact .inr (.skp x _)
  | sknp x =>
    simp only [exec, execSknp] at h
    obtain ⟨hk, rfl⟩ | ⟨k, -, hk⟩ := checkKey_next h
    · exact .inl ⟨_, .sknp x hk, rfl⟩
    · cases hk
      exact .inr (.sknp x _)
  | ldVxK x =>
    simp only [exec, execLdVxK] at h
    split at h
    · rename_i k hk
      cases h
      exact .inr (.ldVxK x _ (State.lowestKey_eq_some.1 hk).1)
    · rename_i hk
      cases h
      exact .inr (.ldVxKWait x (State.lowestKey_eq_none.1 hk))
  | ldBcd x =>
    obtain ⟨hm, rfl⟩ | ⟨hm, hk⟩ := checkMem_next h
    · exact .inl ⟨_, .ldBcd x hm, rfl⟩
    · cases hk
      exact .inr (.ldBcd x _ _ _ hm)
  | ldMemVx x =>
    obtain ⟨hm, rfl⟩ | ⟨hm, hk⟩ := checkMem_next h
    · exact .inl ⟨_, .ldMemVx x hm, rfl⟩
    · rw [State.storeRegs_eq] at hk
      cases hk
      exact .inr (.ldMemVx x hm)
  | ldVxMem x =>
    obtain ⟨hm, rfl⟩ | ⟨hm, hk⟩ := checkMem_next h
    · exact .inl ⟨_, .ldVxMem x hm, rfl⟩
    · rw [State.loadRegs_eq] at hk
      cases hk
      exact .inr (.ldVxMem x hm)
  | _ =>
    cases h
    exact .inr (by constructor)

/-! ### The record of a raised fault -/

/-- The record holds the PC of the faulting instruction (R234). -/
theorem Raises.pc_eq {s : State} {i : Instr} {r : FaultRecord} (h : Raises s i r) : r.pc = s.pc := by
  cases h <;> exact BitVec.setWidth_eq s.pc

/-- Only an access out of bounds can be of the space Key (R232). -/
theorem Raises.space_eq {s : State} {i : Instr} {r : FaultRecord} (h : Raises s i r) :
    r.kind ≠ .outOfBoundsAccess → r.space = .mem := by
  cases h with
  | skp | sknp => exact fun hk => absurd rfl hk
  | _ => exact fun _ => rfl

/-- A fetch fault is of the space Mem and holds the PC that was not fetched at (R106, R238). -/
theorem checkFetch_eq_some {pc : Addr} {r : FaultRecord} (h : checkFetch .hardware pc = some r) :
    r.pc = pc ∧ r.space = .mem := by
  unfold checkFetch at h
  split_ifs at h <;> cases h <;> exact ⟨BitVec.setWidth_eq pc, rfl⟩

/-! ### Frames of a completed instruction -/

section frames

variable {s t : State} {i : Instr}

/-- A completed instruction writes no state but the registers, PC, the stack, the timers, memory, the framebuffer and
the draw counter. -/
theorem Completes.frame (h : Completes s i t) :
    t = { s with v := t.v, i := t.i, pc := t.pc, stack := t.stack, dt := t.dt, st := t.st, mem := t.mem, fb := t.fb,
                 draws := t.draws } := by
  cases h <;> rfl

theorem Completes.fault_eq (h : Completes s i t) : t.fault = s.fault :=
  (congrArg State.fault h.frame :)

theorem Completes.ran_eq (h : Completes s i t) : t.ran = s.ran :=
  (congrArg State.ran h.frame :)

theorem Completes.dfc_eq (h : Completes s i t) : t.dfc = s.dfc :=
  (congrArg State.dfc h.frame :)

theorem Completes.lastDf_eq (h : Completes s i t) : t.lastDf = s.lastDf :=
  (congrArg State.lastDf h.frame :)

/-- The stack is kept, popped by RET, or given the return address by CALL while it has room (R38, R131, R133). -/
theorem Completes.stack_cases (h : Completes s i t) :
    t.stack = s.stack ∨ (i = .ret ∧ ∃ a, s.stack = t.stack ++ [a]) ∨
    ((∃ nnn, i = .call nnn) ∧ s.stack.length < 16 ∧ t.stack = s.stack ++ [s.pc + 2]) := by
  cases h with
  | ret hs => exact .inr (.inl ⟨rfl, _, hs⟩)
  | call nnn hs => exact .inr (.inr ⟨⟨nnn, rfl⟩, hs, rfl⟩)
  | _ => exact .inl rfl

/-- Every instruction keeps memory in canonical form (R42). -/
theorem Completes.mem_wf (h : Completes s i t) (hs : Memory.wf s.mem = true) : Memory.wf t.mem = true := by
  cases h with
  | ldBcd x b₀ b₁ b₂ => exact Memory.wf_write _ _ (Memory.wf_write _ _ (Memory.wf_write _ _ hs))
  | ldMemVx x => exact State.wf_storeRegs hs
  | _ => exact hs

/-- The framebuffer is kept but by CLS and DRW, which keep its mode (R43, R224). -/
theorem Completes.fb_cases (h : Completes s i t) :
    t.fb = s.fb ∨ (t.fb.activeExt = s.fb.activeExt ∧ (i = .cls ∨ ∃ x y n, i = .drw x y n)) := by
  cases h with
  | cls => exact .inr ⟨Framebuffer.activeExt_blank _, .inl rfl⟩
  | drw x y n d hm hd => exact .inr ⟨hd, .inr ⟨x, y, n, rfl⟩⟩
  | _ => exact .inl rfl

end frames

/-! ### The writers' statements -/

/-- Settles O23, by cases on the outcome of the instruction. -/
theorem indexTimerStackWriters : Obligations.IndexTimerStackWriters := by
  intro i s t h
  obtain ⟨r, -, rfl⟩ | hc := exec_next h
  · exact ⟨absurd rfl, absurd rfl, absurd rfl, absurd rfl⟩
  · refine ⟨fun hi => ?_, fun hdt => ?_, fun hst => ?_, fun hstack => ?_⟩
    · cases hc with
      | ldI nnn => exact .inl ⟨nnn, rfl⟩
      | addI x => exact .inr (.inl ⟨x, rfl⟩)
      | ldF x => exact .inr (.inr ⟨x, rfl⟩)
      | _ => exact absurd rfl hi
    · cases hc with
      | ldDtVx x => exact ⟨x, rfl, rfl⟩
      | _ => exact absurd rfl hdt
    · cases hc with
      | ldStVx x => exact ⟨x, rfl, rfl⟩
      | _ => exact absurd rfl hst
    · obtain hs | ⟨hret, -⟩ | ⟨hcall, -⟩ := hc.stack_cases
      · exact absurd hs hstack
      · exact .inl hret
      · exact .inr hcall

/-- Settles O24: the geometry follows from the active mode, which no instruction changes. -/
theorem framebufferWriters : Obligations.FramebufferWriters := by
  intro i s t h
  obtain ⟨r, -, rfl⟩ | hc := exec_next h
  · exact ⟨rfl, rfl, absurd rfl⟩
  · obtain hfb | ⟨hmode, hi⟩ := hc.fb_cases
    · exact ⟨congrArg _ hfb, congrArg _ hfb, absurd hfb⟩
    · refine ⟨?_, ?_, fun _ => hi⟩
      · rw [Framebuffer.width_eq, Framebuffer.width_eq, hmode]
      · rw [Framebuffer.height_eq, Framebuffer.height_eq, hmode]

/-- Settles O26: a completed instruction keeps it all but the draw counter, a fault writes the record and `ran`. -/
theorem bookkeepingFrame : Obligations.BookkeepingFrame := by
  intro i s t h
  obtain ⟨r, -, rfl⟩ | hc := exec_next h
  · exact ⟨rfl, rfl, rfl, rfl, rfl, fun _ => rfl, fun _ => nofun, fun _ => nofun, absurd rfl⟩
  · refine ⟨hc.dfc_eq, hc.lastDf_eq, (congrArg State.refusalMark hc.frame :), (congrArg State.keys hc.frame :),
      (congrArg State.modeExt hc.frame :), hc.ran_eq.trans, absurd hc.ran_eq, fun hf => hc.fault_eq ▸ hf,
      fun hdraws => ?_⟩
    cases hc with
    | rnd x nn => exact ⟨x, nn, rfl⟩
    | _ => exact absurd rfl hdraws

/-- A write to V[x] changes no other register. -/
theorem State.eq_of_getV_setV_ne {s : State} {x r : Reg} {b : Byte} (h : (s.setV x b).getV r ≠ s.getV r) : r = x := by
  by_contra hne
  exact h (State.getV_setV_other s b (Ne.symm hne))

/-- A flag-writing result changes no register but V[x] and VF. -/
theorem State.eq_of_getV_setVFlag_ne {s : State} {x r : Reg} {b : Byte} {f : Bool}
    (h : (s.setVFlag x b f).getV r ≠ s.getV r) : r = x ∨ r = 15 := by
  by_cases hr : r = vf
  · exact .inr hr
  · rw [State.getV_setVFlag_other s x b f hr, ← State.getV_setV s x r b] at h
    exact .inl (State.eq_of_getV_setV_ne h)

/-- Settles O22, by cases on the outcome of the instruction. -/
theorem registerWriters : Obligations.RegisterWriters := by
  intro i s t r h hr
  obtain ⟨_, -, rfl⟩ | hc := exec_next h
  · exact absurd rfl hr
  · cases hc with
    | ldB | addB | ldR | or | and | xor | ldVxDt => exact State.eq_of_getV_setV_ne hr
    | rnd => exact State.eq_of_getV_setV_ne (s := s.countDraw) hr
    | addR | sub | shr | subn | shl => exact State.eq_of_getV_setVFlag_ne hr
    | ldVxK x b hk => exact ⟨State.eq_of_getV_setV_ne hr, _, hk⟩
    | drw x y n d => exact State.eq_of_getV_setV_ne (s := s.setFb d.1) hr
    | ldVxMem x =>
      change (s.loadRegs s.base (x.val + 1)).getV r ≠ s.getV r at hr
      rw [State.getV_loadRegs (by omega)] at hr
      split at hr
      · exact Fin.le_def.2 (by omega)
      · exact absurd rfl hr
    | _ => exact absurd rfl hr

/-! ### The next PC -/

/-- A skip advances PC by 2 or by 4 (R112). -/
theorem State.skipIf_pc_cases (s : State) (f : Bool) : (s.skipIf f).pc = s.pc + 2 ∨ (s.skipIf f).pc = s.pc + 4 := by
  cases f
  · exact .inl rfl
  · exact .inr rfl

/-- Settles O16, by cases on the outcome of the instruction; a fault is excluded by hypothesis. -/
theorem nextPcOfCompletedInstruction : Obligations.NextPcOfCompletedInstruction := by
  intro i s t h hf
  obtain ⟨_, -, rfl⟩ | hc := exec_next h
  · cases hf
  · cases hc with
    | jp nnn | call nnn =>
      have := nnn.isLt
      simp
      omega
    | jpV0 nnn =>
      have := nnn.isLt
      have := s.getV_lt 0
      simp
      omega
    | ret hs => simp [hs]
    | seB | sneB | seR | sneR | skp | sknp => exact s.skipIf_pc_cases _
    | ldVxKWait => exact .inl rfl
    | ldVxK => exact .inr rfl
    | _ => rfl

/-- PC + n is at most n above PC, whether or not it wraps. -/
theorem toNat_pc_add_le (s : State) (n : Addr) : (s.pc + n).toNat ≤ s.pc.toNat + n.toNat := by
  rw [BitVec.toNat_add]
  exact Nat.mod_le _ _

/-- The largest PC that an instruction can form (R36): a return address or a 12-bit target plus at most 255; an advance
from a PC that was fetched at stays below it. -/
theorem pc_le_of_exec_next {i : Instr} {s t : State} (h : exec i s = .next t) (hf : t.fault = none)
    (hpc : s.pc.toNat + 1 < 4096) (hs : ∀ a ∈ s.stack, a.toNat ≤ 0x1000) : t.pc.toNat ≤ 0x10FE := by
  have hn := nextPcOfCompletedInstruction i s t h hf
  have h2 : (s.pc + 2).toNat ≤ s.pc.toNat + 2 := toNat_pc_add_le s 2
  have h4 : (s.pc + 4).toNat ≤ s.pc.toNat + 4 := toNat_pc_add_le s 4
  cases i with
  | jp nnn | call nnn =>
    dsimp only at hn
    omega
  | jpV0 nnn =>
    have := s.getV_lt 0
    dsimp only at hn
    omega
  | ret => exact (hs _ (List.mem_of_getLast? hn)).trans (by decide)
  | seB | sneB | seR | sneR | skp | sknp | ldVxK =>
    obtain hn | hn := hn
    · rw [hn]
      omega
    · rw [hn]
      omega
  | _ =>
    dsimp only at hn
    rw [hn]
    omega

/-! ### The invariant (R36, R38, R42, R48, R133, R232, R234) -/

/-- A cycle sets `ran` before it executes (R49, R105). -/
theorem State.Inv.setRan {s : State} (h : s.Inv) : State.Inv { s with ran := true } where
  mem_wf := h.mem_wf
  stack_len := h.stack_len
  stack_entries := h.stack_entries
  pc_bound := h.pc_bound
  dfc_log := h.dfc_log
  fault_pc r hr := ⟨rfl, (h.fault_pc r hr).2⟩
  fault_space := h.fault_space

/-- Fault entry keeps the invariant, given what a record must say. -/
theorem State.Inv.afterFault {s : State} {r : FaultRecord} (h : s.Inv) (hpc : r.pc = s.pc)
    (hspace : r.kind ≠ .outOfBoundsAccess → r.space = .mem) :
    State.Inv { s with fault := some r, ran := true } where
  mem_wf := h.mem_wf
  stack_len := h.stack_len
  stack_entries := h.stack_entries
  pc_bound := h.pc_bound
  dfc_log := h.dfc_log
  fault_pc r' hr := by
    cases hr
    exact ⟨rfl, hpc⟩
  fault_space r' hr := by
    cases hr
    exact hspace

/-- The count of DecodeFaults is not 0 after one (R111). -/
theorem decodeFault_dfc_ne_zero (w : Word) (s : State) : (decodeFault w s).dfc ≠ 0 := by
  intro h0
  have h : 0 = min (s.dfc.toNat + 1) 4294967295 := by simpa [h0] using toNat_decodeFault_dfc w s
  omega

/-- A DecodeFault, counted at a PC that was fetched at, keeps the invariant (R111). -/
theorem State.Inv.afterDecodeFault {s : State} (h : s.Inv) (w : Word) (hf : s.fault = none)
    (hpc : s.pc.toNat + 1 < 4096) : (decodeFault w s).Inv where
  mem_wf := h.mem_wf
  stack_len := h.stack_len
  stack_entries := h.stack_entries
  pc_bound := (toNat_pc_add_le s 2).trans (show s.pc.toNat + 2 ≤ 0x10FE by omega)
  dfc_log := iff_of_false (decodeFault_dfc_ne_zero w s) nofun
  fault_pc r hr := absurd (hf.symm.trans hr) nofun
  fault_space r hr := absurd (hf.symm.trans hr) nofun

/-- Completion keeps the stack within its depth (R38). -/
theorem Completes.stack_length_le {s t : State} {i : Instr} (h : Completes s i t) (hs : s.stack.length ≤ 16) :
    t.stack.length ≤ 16 := by
  obtain ht | ⟨-, a, ht⟩ | ⟨-, hlt, ht⟩ := h.stack_cases
  · rw [ht]
    exact hs
  · rw [ht, List.length_append] at hs
    omega
  · simp [ht]
    omega

/-- Completion keeps every return address at most 0x1000, since an even PC that was fetched at is at
most 0xFFE (R133). -/
theorem Completes.stack_entries_le {s t : State} {i : Instr} (h : Completes s i t)
    (hc : checkFetch .hardware s.pc = none) (hs : ∀ a ∈ s.stack, a.toNat ≤ 0x1000) :
    ∀ a ∈ t.stack, a.toNat ≤ 0x1000 := by
  obtain ht | ⟨-, b, ht⟩ | ⟨-, -, ht⟩ := h.stack_cases
  · rwa [ht]
  · exact fun a ha => hs a (by rw [ht]; exact List.mem_append_left _ ha)
  · rw [ht]
    intro a ha
    obtain ha | ha := List.mem_append.1 ha
    · exact hs a ha
    · rw [List.mem_singleton.1 ha]
      obtain ⟨hbit, hlt⟩ := checkFetch_none.1 hc
      have heven : s.pc.toNat % 2 = 0 := by simpa [BitVec.getLsbD] using hbit
      have h2 : (s.pc + 2).toNat ≤ s.pc.toNat + 2 := toNat_pc_add_le s 2
      omega

/-- An instruction, executed at a PC that was fetched at, keeps the invariant. -/
theorem State.Inv.afterExec {i : Instr} {s t : State} (h : s.Inv) (hf : s.fault = none)
    (hc : checkFetch .hardware s.pc = none) (ht : exec i s = .next t) : t.Inv := by
  obtain ⟨r, hr, rfl⟩ | hcomp := exec_next ht
  · exact h.afterFault hr.pc_eq hr.space_eq
  · have htf : t.fault = none := hcomp.fault_eq.trans hf
    exact {
      mem_wf := hcomp.mem_wf h.mem_wf
      stack_len := hcomp.stack_length_le h.stack_len
      stack_entries := hcomp.stack_entries_le hc h.stack_entries
      pc_bound := pc_le_of_exec_next ht htf (checkFetch_none.1 hc).2 h.stack_entries
      dfc_log := by rw [hcomp.dfc_eq, hcomp.lastDf_eq]; exact h.dfc_log
      fault_pc := fun r hr => absurd (htf.symm.trans hr) nofun
      fault_space := fun r hr => absurd (htf.symm.trans hr) nofun }

/-- Settles O17, by cases on what the step did: a fetch fault, an instruction, or a DecodeFault. -/
theorem stepKeepsInv : Obligations.StepKeepsInv := by
  intro s t h hstep
  obtain ⟨hf, -, ⟨r, hr, rfl⟩ | ⟨hc, ⟨i, -, hi⟩ | ⟨-, rfl⟩⟩⟩ := step_next hstep
  · obtain ⟨hpc, hspace⟩ := checkFetch_eq_some hr
    exact h.afterFault hpc fun _ => hspace
  · exact h.setRan.afterExec hf hc hi
  · exact h.setRan.afterDecodeFault s.fetchWord hf (checkFetch_none.1 hc).2

/-- Settles O18, field by field. -/
theorem resetSatisfiesInv : Obligations.ResetSatisfiesInv where
  mem_wf := Memory.wf_nil
  stack_len := Nat.zero_le _
  stack_entries := nofun
  pc_bound := by decide
  dfc_log := iff_of_true rfl rfl
  fault_pc := nofun
  fault_space := nofun

/-! ### The host's operations -/

/-- No cycle writes the latch or the mode flag (R45, R46). -/
theorem step_keeps_keys_modeExt {s t : State} (h : step s = .next t) : t.keys = s.keys ∧ t.modeExt = s.modeExt := by
  obtain ⟨-, -, ⟨r, -, rfl⟩ | ⟨-, ⟨i, -, hi⟩ | ⟨-, rfl⟩⟩⟩ := step_next h
  · exact ⟨rfl, rfl⟩
  · obtain ⟨-, -, -, hkeys, hmode, -⟩ := bookkeepingFrame i _ t hi
    exact ⟨hkeys, hmode⟩
  · exact ⟨rfl, rfl⟩

/-- The state after the host's cycle: the next state of a step, the same state, or the same state marked (R236, R240). -/
theorem cycleOp_cases (s : State) :
    step s = .next (cycleOp s).2 ∨ (cycleOp s).2 = s ∨ (cycleOp s).2 = markRefused s := by
  rw [cycleOp, cycle_eq_step]
  split
  · rename_i t ht
    rw [ht]
    split
    · exact .inl rfl
    · exact .inl rfl
  · exact .inr (.inl rfl)
  · exact .inr (.inr rfl)

/-- The state after the host's load: the image copied, the same state, or the same state marked (R272, R273, R274). -/
theorem loadOp_cases (image : Option (List Byte)) (s : State) :
    (∃ bytes, (loadOp image s).2 = copyBytes 0x200 bytes s) ∨ (loadOp image s).2 = s ∨
    (loadOp image s).2 = markRefused s := by
  unfold loadOp
  split
  · exact .inr (.inr rfl)
  · split
    · exact .inr (.inl rfl)
    · split
      · exact .inr (.inl rfl)
      · exact .inl ⟨_, rfl⟩

theorem cycleOp_keeps_keys_modeExt (s : State) : (cycleOp s).2.keys = s.keys ∧ (cycleOp s).2.modeExt = s.modeExt := by
  obtain h | h | h := cycleOp_cases s
  · exact step_keeps_keys_modeExt h
  all_goals
    rw [h]
    exact ⟨rfl, rfl⟩

theorem loadOp_keeps_keys_modeExt (image : Option (List Byte)) (s : State) :
    (loadOp image s).2.keys = s.keys ∧ (loadOp image s).2.modeExt = s.modeExt := by
  obtain ⟨bytes, h⟩ | h | h := loadOp_cases image s
  · rw [h, copyBytes_eq]
    exact ⟨rfl, rfl⟩
  all_goals
    rw [h]
    exact ⟨rfl, rfl⟩

/-- Settles O21, by cases on the host's operation. -/
theorem latchAndModeFlagAreTheHosts : Obligations.LatchAndModeFlagAreTheHosts := by
  intro op s
  cases op with
  | reset => exact ⟨fun _ hne => absurd rfl hne, fun _ => rfl⟩
  | load image =>
    obtain ⟨hkeys, hmode⟩ := loadOp_keeps_keys_modeExt image s
    exact ⟨fun _ _ => hkeys, fun _ => hmode⟩
  | setExtendedMode b => exact ⟨fun _ _ => rfl, fun hne => absurd rfl (hne b)⟩
  | cycle =>
    obtain ⟨hkeys, hmode⟩ := cycleOp_keeps_keys_modeExt s
    exact ⟨fun _ _ => hkeys, fun _ => hmode⟩
  | tickTimers => exact ⟨fun _ _ => rfl, fun _ => rfl⟩
  | setKey k b => exact ⟨fun hne => absurd rfl (hne k b), fun _ => rfl⟩

/-- Settles O54: reset depends on the mode flag and the draw counter alone. -/
theorem creationIsReset : Obligations.CreationIsReset := by
  refine ⟨rfl, rfl, rfl, rfl, fun s hs => ?_⟩
  change State.afterReset s.modeExt State.reset.draws = State.reset
  rw [hs]
  rfl

end Sys2Proof.Machine

/-! Memory (20_memory.md): which bytes an instruction changes, what the next fetch sees of a store, and the reset image. -/

namespace Sys2Proof.Machine

/-! ### The writers of memory (R80) -/

section writes

variable {c : Params}

/-- A write to one cell leaves every other byte as it was. -/
theorem State.readByte_writeByte_other {s : State c} {a b : Nat} (x : Byte) (h : Memory.wf s.mem c = true)
    (ha : a < c.memSize) (hb : b ≠ a) : (s.writeByte a x).readByte b = s.readByte b := by
  rw [State.readByte_writeByte b x h ha, if_neg hb]

/-- Writing three consecutive cells, as LD_BCD does, leaves every other byte as it was. -/
theorem State.readByte_writeThree_other {s : State c} {a b : Nat} (b₀ b₁ b₂ : Byte) (h : Memory.wf s.mem c = true)
    (ha : a + 3 ≤ c.memSize) (hb : b < a ∨ a + 3 ≤ b) :
    (((s.writeByte a b₀).writeByte (a + 1) b₁).writeByte (a + 2) b₂).readByte b = s.readByte b := by
  have h₀ := State.wf_writeByte a b₀ h
  have h₁ := State.wf_writeByte (a + 1) b₁ h₀
  rw [State.readByte_writeByte_other b₂ h₁ (by omega) (by omega),
    State.readByte_writeByte_other b₁ h₀ (by omega) (by omega),
    State.readByte_writeByte_other b₀ h (by omega) (by omega)]

end writes

/-- Settles O25, by cases on the outcome of the instruction: outside the range that LD_BCD or LD_MEM_VX stores to, the
byte is as it was; the rest writes no memory. -/
theorem memoryWriters : Obligations.MemoryWriters := by
  intro i s t a hwf h ha
  obtain ⟨r, -, rfl⟩ | hc := exec_next h
  · exact absurd rfl ha
  · cases hc with
    | ldBcd x b₀ b₁ b₂ hm =>
      by_contra hout
      exact ha (State.readByte_writeThree_other b₀ b₁ b₂ hwf hm (by unfold State.base; omega))
    | ldMemVx x hm =>
      by_contra hout
      exact ha (State.readByte_storeRegs_other hwf hm a (by unfold State.base; omega))
    | _ => exact absurd rfl ha

/-! ### A store before a fetch (R87) -/

/-- LD_MEM_VX inside memory stores the registers and advances. -/
theorem exec_ldMemVx_of_fits {x : Reg} {s : State} (h : s.base + (x.val + 1) ≤ 4096) :
    exec (.ldMemVx x) s = .next (s.storeRegs s.base (x.val + 1)).advance :=
  checkMem_pass h

/-- A state whose PC is where two or more registers were stored fetches V0 and V1, high byte first (R76). -/
theorem toNat_fetchWord_storeRegs_advance {a n : Nat} {s : State} (hwf : Memory.wf s.mem = true) (hn : n ≤ 16)
    (h2 : 2 ≤ n) (ha : a + n ≤ 4096) (hpc : (s.pc + 2).toNat = a) :
    (s.storeRegs a n).advance.fetchWord.toNat = 256 * (s.getV 0).toNat + (s.getV 1).toNat := by
  have hpc' : (s.storeRegs a n).advance.pc.toNat = a := by
    rw [State.storeRegs_eq]
    exact hpc
  have h0 : (s.storeRegs a n).readByte a = s.getV 0 :=
    (State.readByte_storeRegs hwf hn ha 0 (by simp; omega)).trans (zext_self _)
  have h1 : (s.storeRegs a n).readByte (a + 1) = s.getV 1 :=
    (State.readByte_storeRegs hwf hn ha 1 (by simp; omega)).trans (zext_self _)
  rw [State.fetchWord, toNat_wordOfBytes, hpc', ← h0, ← h1]
  rfl

/-- Settles O60: the store covers PC + 2, where the next fetch reads. -/
theorem storeSeenByNextFetch : Obligations.StoreSeenByNextFetch := by
  intro x s hwf hi hx hm
  have hpc : (s.pc + 2).toNat = s.base := (congrArg BitVec.toNat hi).symm
  exact ⟨_, exec_ldMemVx_of_fits hm,
    toNat_fetchWord_storeRegs_advance hwf x.isLt (Nat.succ_le_succ hx) hm hpc⟩

/-! ### The reset image (R72, R78) -/

/-- Memory after reset lists no cell, so a byte of it is one of FONT_DATA, or 0 past its end. -/
theorem readByte_reset (a : Nat) : State.reset.readByte a = Config.fontData.getD a 0 := by
  change unlistedByte .hardware a = Config.fontData.getD a 0
  simp [unlistedByte]

/-- FONT_DATA is what a read of its length at FONT_BASE gives after reset. -/
theorem readBytes_reset : State.reset.readBytes 0 Config.fontData.length = Config.fontData := by
  apply List.ext_getElem
  · simp [State.readBytes]
  · intro k _ hk
    simp [State.readBytes, readByte_reset, hk]

/-- Settles O55: the table is read back, and a read past its end gives 0. -/
theorem fontAfterReset : Obligations.FontAfterReset := by
  refine ⟨readBytes_reset, fun a ha => ?_⟩
  rw [readByte_reset]
  exact List.getD_eq_default _ _ ha

end Sys2Proof.Machine

/-! The decoder against the spec's lists of words (30_encoding.md R107 to R110): each sub-decoder in the numbers of its
field, said once, and the family a word belongs to (`DecodesBy`), by whose cases the spaces of words follow. -/

namespace Sys2Proof

/-! ### The rows of each sub-decoder (R107, R108) -/

theorem decode0_eq (w : Word) (ext : Bool) :
    decode0 w ext =
      if w = 0x00E0 then .instr .cls
      else if w = 0x00EE then .instr .ret
      else if (0x00C0 ≤ w.toNat ∧ w.toNat ≤ 0x00CF) ∨ (0x00FB ≤ w.toNat ∧ w.toNat ≤ 0x00FF) then extendedWord ext
      else .unknown := by
  simp only [decode0, isExt0, Bool.or_eq_true, Bool.and_eq_true, decide_eq_true_eq]
  rfl

theorem decode8_eq (x y : Reg) (n : BitVec 4) :
    decode8 x y n =
      if n.toNat = 0 then .instr (.ldR x y)
      else if n.toNat = 1 then .instr (.or x y)
      else if n.toNat = 2 then .instr (.and x y)
      else if n.toNat = 3 then .instr (.xor x y)
      else if n.toNat = 4 then .instr (.addR x y)
      else if n.toNat = 5 then .instr (.sub x y)
      else if n.toNat = 6 then .instr (.shr x y)
      else if n.toNat = 7 then .instr (.subn x y)
      else if n.toNat = 0xE then .instr (.shl x y)
      else .unknown := by
  unfold decode8
  split
  case h_10 => simp_all [BitVec.toNat_eq]
  all_goals rfl

theorem decodeD_eq (x y : Reg) (n : BitVec 4) (ext : Bool) :
    decodeD x y n ext =
      if n.toNat ≠ 0 then .instr (.drw x y (Fin.ofNat 16 n.toNat))
      else if ext then .refusedExt
      else .instr (.drw0 x y) := by
  rw [show Fin.ofNat 16 n.toNat = ofNibble n from Fin.ext (Nat.mod_eq_of_lt n.isLt)]
  simp [decodeD, BitVec.toNat_eq]

theorem decodeE_eq (x : Reg) (nn : Byte) :
    decodeE x nn =
      if nn.toNat = 0x9E then .instr (.skp x)
      else if nn.toNat = 0xA1 then .instr (.sknp x)
      else .unknown := by
  unfold decodeE
  split
  case h_3 => simp_all [BitVec.toNat_eq]
  all_goals rfl

theorem decodeF_eq (x : Reg) (nn : Byte) (ext : Bool) :
    decodeF x nn ext =
      if nn.toNat = 0x07 then .instr (.ldVxDt x)
      else if nn.toNat = 0x0A then .instr (.ldVxK x)
      else if nn.toNat = 0x15 then .instr (.ldDtVx x)
      else if nn.toNat = 0x18 then .instr (.ldStVx x)
      else if nn.toNat = 0x1E then .instr (.addI x)
      else if nn.toNat = 0x29 then .instr (.ldF x)
      else if nn.toNat = 0x33 then .instr (.ldBcd x)
      else if nn.toNat = 0x55 then .instr (.ldMemVx x)
      else if nn.toNat = 0x65 then .instr (.ldVxMem x)
      else if nn.toNat = 0x30 ∨ nn.toNat = 0x75 ∨ nn.toNat = 0x85 then extendedWord ext
      else .unknown := by
  unfold decodeF
  split
  case h_13 => simp_all [BitVec.toNat_eq]
  all_goals rfl

/-! ### The dispatch table -/

/-- Numbers that make up a word as its nibbles do are its fields (R101). -/
theorem fields_of_parts {w : Word} {op n nn : Nat} {x y : Reg} {nnn : BitVec 12}
    (hw : w.toNat = 4096 * op + nnn.toNat) (hnnn : nnn.toNat = 256 * x.val + nn) (hnn : nn = 16 * y.val + n)
    (hn : n < 16) :
    op = (fieldOp w).toNat ∧ n = (fieldN w).toNat ∧ nn = (fieldNn w).toNat ∧ x = ofNibble (fieldX w) ∧
    y = ofNibble (fieldY w) ∧ nnn = fieldNnn w := by
  have hx := x.isLt
  have hy := y.isLt
  refine ⟨?_, ?_, ?_, Fin.ext ?_, Fin.ext ?_, BitVec.eq_of_toNat_eq ?_⟩
  · rw [toNat_fieldOp]; omega
  · rw [toNat_fieldN]; omega
  · rw [toNat_fieldNn]; omega
  · rw [val_ofNibble, toNat_fieldX]; omega
  · rw [val_ofNibble, toNat_fieldY]; omega
  · rw [toNat_fieldNnn]; omega

/-- Settles O4: the parts are the word's fields, and each family's row is its sub-decoder's. Case `h_k` of the split is
family k - 1, the last one F. -/
theorem dispatchTable : Obligations.DispatchTable := by
  intro w ext op n nn x y nnn hw hnnn hnn hn
  obtain ⟨rfl, rfl, rfl, rfl, rfl, rfl⟩ := fields_of_parts hw hnnn hnn hn
  unfold decode
  generalize fieldOp w = op
  dsimp only
  split
  case h_1 => exact decode0_eq w ext
  case h_6 | h_10 => simp [BitVec.toNat_eq]
  case h_9 => exact decode8_eq _ _ _
  case h_14 => exact decodeD_eq _ _ _ ext
  case h_15 => exact decodeE_eq _ _
  case h_16 =>
    obtain rfl : op = 0xF#4 := by
      simp only [imp_false] at *
      bv_omega
    exact decodeF_eq _ _ ext
  all_goals simp

/-! ### The family of a word -/

/-- What decodes a word, in either mode, by its family `w[15:12]`. Where only what is Unknown or Refused matters, the
instruction `i` and its registers are any. -/
inductive DecodesBy (w : Word) : (Bool → Decoded) → Prop
  | family0 (hop : w.toNat / 4096 = 0) : DecodesBy w (decode0 w)
  | family59 (i : Instr) (hop : w.toNat / 4096 = 5 ∨ w.toNat / 4096 = 9) :
      DecodesBy w fun _ => if fieldN w = 0#4 then .instr i else .unknown
  | family8 (x y : Reg) (hop : w.toNat / 4096 = 8) : DecodesBy w fun _ => decode8 x y (fieldN w)
  | familyD (hop : w.toNat / 4096 = 0xD) :
      DecodesBy w (decodeD (ofNibble (fieldX w)) (ofNibble (fieldY w)) (fieldN w))
  | familyE (x : Reg) (hop : w.toNat / 4096 = 0xE) : DecodesBy w fun _ => decodeE x (fieldNn w)
  | familyF (x : Reg) (hop : w.toNat / 4096 = 0xF) : DecodesBy w (decodeF x (fieldNn w))
  | whole (i : Instr) (hop : w.toNat / 4096 ∈ [1, 2, 3, 4, 6, 7, 0xA, 0xB, 0xC]) : DecodesBy w fun _ => .instr i

/-- Case `h_k` of the split is family k - 1, as in `dispatchTable`. -/
theorem decodesBy_decode (w : Word) : DecodesBy w (decode w) := by
  have hop := toNat_fieldOp w
  unfold decode
  generalize fieldOp w = op at hop
  dsimp only
  split
  case h_1 => exact .family0 hop.symm
  case h_6 => exact .family59 _ (.inl hop.symm)
  case h_10 => exact .family59 _ (.inr hop.symm)
  case h_9 => exact .family8 _ _ hop.symm
  case h_14 => exact .familyD hop.symm
  case h_15 => exact .familyE _ hop.symm
  case h_16 =>
    obtain rfl : op = 0xF#4 := by
      simp only [imp_false] at *
      bv_omega
    exact .familyF _ hop.symm
  all_goals exact .whole _ (by rw [← hop]; decide)

/-! ### The Unknown words of standard mode (R109) -/

theorem decode0_false_eq_unknown {w : Word} : decode0 w false = .unknown ↔ w ≠ 0x00E0 ∧ w ≠ 0x00EE := by
  rw [decode0_eq]
  split_ifs <;> simp_all [extendedWord]

theorem family59_eq_unknown {n : BitVec 4} {i : Instr} :
    (if n = 0#4 then Decoded.instr i else .unknown) = .unknown ↔ n.toNat ≠ 0 := by
  simp [BitVec.toNat_eq]

theorem decode8_eq_unknown {x y : Reg} {n : BitVec 4} :
    decode8 x y n = .unknown ↔ n.toNat ∈ [0x8, 0x9, 0xA, 0xB, 0xC, 0xD, 0xF] := by
  unfold decode8
  split
  case h_10 =>
    refine iff_of_true rfl ?_
    simp only [imp_false, List.mem_cons, List.not_mem_nil, or_false] at *
    bv_omega
  all_goals exact iff_of_false nofun (by decide)

theorem decodeD_false_ne_unknown (x y : Reg) (n : BitVec 4) : decodeD x y n false ≠ .unknown := by
  rw [decodeD_eq]
  split <;> nofun

theorem decodeE_eq_unknown {x : Reg} {nn : Byte} : decodeE x nn = .unknown ↔ nn.toNat ∉ [0x9E, 0xA1] := by
  unfold decodeE
  split
  case h_3 => simp_all [BitVec.toNat_eq]
  all_goals exact iff_of_false nofun (by decide)

theorem decodeF_false_eq_unknown {x : Reg} {nn : Byte} :
    decodeF x nn false = .unknown ↔ nn.toNat ∉ [0x07, 0x0A, 0x15, 0x18, 0x1E, 0x29, 0x33, 0x55, 0x65] := by
  unfold decodeF
  split
  case h_13 => simp_all [BitVec.toNat_eq]
  case h_10 | h_11 | h_12 => exact iff_of_true rfl (by decide)
  all_goals exact iff_of_false nofun (by decide)

/-- Settles O5, by cases on the family of the word. -/
theorem unknownSpace : Obligations.UnknownSpace := by
  intro w
  rw [← toNat_fieldN, ← toNat_fieldNn]
  have h := decodesBy_decode w
  generalize decode w = d at h ⊢
  cases h with
  | family0 hop => simp [decode0_false_eq_unknown, hop]
  | family59 i hop =>
    rw [family59_eq_unknown]
    omega
  | family8 x y hop => simp [decode8_eq_unknown, hop]
  | familyD hop => exact iff_of_false (decodeD_false_ne_unknown _ _ _) (by omega)
  | familyE x hop => simp [decodeE_eq_unknown, hop]
  | familyF x hop => simp [decodeF_false_eq_unknown, hop]
  | whole i hop =>
    simp only [List.mem_cons, List.not_mem_nil, or_false] at hop
    exact iff_of_false nofun (by omega)

/-! ### The extended space (R110) -/

theorem decode0_true_eq_refusedExt {w : Word} :
    decode0 w true = .refusedExt ↔
      (0x00C0 ≤ w.toNat ∧ w.toNat ≤ 0x00CF) ∨ (0x00FB ≤ w.toNat ∧ w.toNat ≤ 0x00FF) := by
  rw [decode0_eq]
  split_ifs with hcls hret hext
  · exact iff_of_false nofun (by rw [hcls]; decide)
  · exact iff_of_false nofun (by rw [hret]; decide)
  · exact iff_of_true rfl hext
  · exact iff_of_false nofun hext

theorem family59_ne_refusedExt (n : BitVec 4) (i : Instr) :
    (if n = 0#4 then Decoded.instr i else .unknown) ≠ .refusedExt := by
  split <;> nofun

theorem decode8_ne_refusedExt (x y : Reg) (n : BitVec 4) : decode8 x y n ≠ .refusedExt := by
  unfold decode8
  split <;> nofun

theorem decodeD_true_eq_refusedExt {x y : Reg} {n : BitVec 4} : decodeD x y n true = .refusedExt ↔ n.toNat = 0 := by
  simp [decodeD_eq]

theorem decodeE_ne_refusedExt (x : Reg) (nn : Byte) : decodeE x nn ≠ .refusedExt := by
  unfold decodeE
  split <;> nofun

theorem decodeF_true_eq_refusedExt {x : Reg} {nn : Byte} :
    decodeF x nn true = .refusedExt ↔ nn.toNat ∈ [0x30, 0x75, 0x85] := by
  unfold decodeF
  split
  case h_13 => simp_all [BitVec.toNat_eq]
  case h_10 | h_11 | h_12 => exact iff_of_true rfl (by decide)
  all_goals exact iff_of_false nofun (by decide)

theorem decode_true_eq_refusedExt {w : Word} :
    decode w true = .refusedExt ↔
      (0x00C0 ≤ w.toNat ∧ w.toNat ≤ 0x00CF) ∨ w.toNat ∈ [0x00FB, 0x00FC, 0x00FD, 0x00FE, 0x00FF] ∨
      (w.toNat / 4096 = 0xD ∧ w.toNat % 16 = 0) ∨
      (w.toNat / 4096 = 0xF ∧ w.toNat % 256 ∈ [0x30, 0x75, 0x85]) := by
  rw [← toNat_fieldN, ← toNat_fieldNn]
  simp only [List.mem_cons, List.not_mem_nil, or_false]
  have h := decodesBy_decode w
  generalize decode w = d at h ⊢
  cases h with
  | family0 hop =>
    rw [decode0_true_eq_refusedExt]
    omega
  | family59 i hop => exact iff_of_false (family59_ne_refusedExt _ _) (by omega)
  | family8 x y hop => exact iff_of_false (decode8_ne_refusedExt _ _ _) (by omega)
  | familyD hop =>
    rw [decodeD_true_eq_refusedExt]
    omega
  | familyE x hop => exact iff_of_false (decodeE_ne_refusedExt _ _) (by omega)
  | familyF x hop =>
    simp only [decodeF_true_eq_refusedExt, List.mem_cons, List.not_mem_nil, or_false]
    omega
  | whole i hop =>
    simp only [List.mem_cons, List.not_mem_nil, or_false] at hop
    exact iff_of_false nofun (by omega)

/-- A word that extended mode refuses is Unknown in standard mode, or the no-op draw (R110, R181). -/
theorem decode_false_of_refusedExt {w : Word} (hr : decode w true = .refusedExt) :
    decode w false = if w.toNat / 4096 = 0xD then
      .instr (.drw0 (Fin.ofNat 16 (w.toNat / 256)) (Fin.ofNat 16 (w.toNat / 16))) else .unknown := by
  have h := decodesBy_decode w
  generalize decode w = d at h hr ⊢
  cases h with
  | family0 hop =>
    rw [hop, if_neg (by decide), decode0_false_eq_unknown]
    constructor
    · rintro rfl
      exact absurd hr (by decide)
    · rintro rfl
      exact absurd hr (by decide)
  | family59 i hop => exact absurd hr (family59_ne_refusedExt _ _)
  | family8 x y hop => exact absurd hr (decode8_ne_refusedExt _ _ _)
  | familyD hop =>
    have hx : ofNibble (fieldX w) = Fin.ofNat 16 (w.toNat / 256) := Fin.ext (toNat_fieldX w)
    have hy : ofNibble (fieldY w) = Fin.ofNat 16 (w.toNat / 16) := Fin.ext (toNat_fieldY w)
    have hn := decodeD_true_eq_refusedExt.1 hr
    rw [if_pos hop, decodeD_eq, if_neg (not_not_intro hn), hx, hy]
    rfl
  | familyE x hop => exact absurd hr (decodeE_ne_refusedExt _ _)
  | familyF x hop =>
    have hnn := decodeF_true_eq_refusedExt.1 hr
    rw [hop, if_neg (by decide), decodeF_false_eq_unknown]
    simp only [List.mem_cons, List.not_mem_nil, or_false] at hnn ⊢
    omega
  | whole i hop => cases hr

/-- Standard mode refuses no word. -/
theorem decode_false_ne_refusedExt (w : Word) : decode w false ≠ .refusedExt := by
  have h := decodesBy_decode w
  generalize decode w = d at h ⊢
  cases h with
  | family0 hop =>
    rw [decode0_eq]
    split_ifs <;> nofun
  | family59 i hop => exact family59_ne_refusedExt _ _
  | family8 x y hop => exact decode8_ne_refusedExt _ _ _
  | familyD hop =>
    rw [decodeD_eq]
    split <;> nofun
  | familyE x hop => exact decodeE_ne_refusedExt _ _
  | familyF x hop =>
    rw [decodeF_eq]
    split_ifs <;> nofun
  | whole i hop =>
    intro hr
    cases hr

/-- Settles O6, part by part. -/
theorem extendedSpace : Obligations.ExtendedSpace :=
  fun w => ⟨decode_true_eq_refusedExt, decode_false_of_refusedExt, decode_false_ne_refusedExt w⟩

end Sys2Proof

/-! The cycle (30_encoding.md R105, R106, R111, R112): what the fetch check, the fetch and the DecodeFault come to. -/

namespace Sys2Proof.Machine

/-- Bit 0 is the parity of a word. -/
theorem getLsbD_zero_eq_decide {n : Nat} (b : BitVec n) : b.getLsbD 0 = decide (b.toNat % 2 = 1) :=
  Nat.testBit_zero ..

/-- At an even PC inside memory the byte after it is inside too, so the fetch check passes (R106). -/
theorem State.canFetch_of_even {s : State} (hf : s.fault = none) (hm : s.refusalMark = false)
    (heven : s.pc.toNat % 2 = 0) (hlt : s.pc.toNat < 4096) : s.CanFetch :=
  ⟨hf, hm, checkFetch_none.2 ⟨by rw [getLsbD_zero_eq_decide, heven]; rfl, by omega⟩⟩

/-- The fetch is big-endian (R76, R77). -/
theorem State.fetchWord_eq_ofNat (s : State) :
    s.fetchWord = BitVec.ofNat 16 (256 * (s.readByte s.pc.toNat).toNat + (s.readByte (s.pc.toNat + 1)).toNat) :=
  (BitVec.toNat_eq_nat.1 (toNat_wordOfBytes _ _)).2

/-- Settles O7: the fetch check passes, so the step is what the fetched word decodes to. -/
theorem stepRunsDecodedInstruction : Obligations.StepRunsDecodedInstruction := by
  intro s i hf hm heven hlt hi
  rw [← s.fetchWord_eq_ofNat] at hi
  rw [step_of_canFetch (State.canFetch_of_even hf hm heven hlt)]
  exact execWord_instr hi

/-- This hardware's DecodeFault (R111). -/
theorem decodeFault_eq (w : Word) (s : State) :
    decodeFault w s =
      { s with
        dfc := BitVec.ofNat 32 (min (s.dfc.toNat + 1) 0xFFFFFFFF)
        lastDf := some { pc := s.pc, word := w }
        pc := s.pc + 2 } := by
  have hdfc : (decodeFault w s).dfc = BitVec.ofNat 32 (min (s.dfc.toNat + 1) 0xFFFFFFFF) :=
    (BitVec.toNat_eq_nat.1 (toNat_decodeFault_dfc w s)).2
  rw [← hdfc]
  simp [decodeFault, State.advance, State.setPc]

/-- Settles O8: the step is the DecodeFault of the state with `ran` set. -/
theorem unknownWordIsDecodeFault : Obligations.UnknownWordIsDecodeFault := by
  intro s hc hu
  rw [step_of_canFetch hc, execWord_unknown (s := { s with ran := true }) hu, decodeFault_eq]

/-- The fetch check in numbers: its bit test is the parity of PC, and its record holds PC mod 65536 (R106). -/
theorem checkFetch_eq (c : Params) (pc : BitVec c.pcWidth) :
    checkFetch c pc =
      let a := BitVec.ofNat 16 pc.toNat
      if c.oddPcFaults = true ∧ pc.toNat % 2 = 1 then some ⟨.misalignedFetch, a, 0, a, .mem⟩
      else if c.memSize ≤ pc.toNat then some ⟨.outOfBoundsAccess, a, 0, a, .mem⟩
      else if c.memSize ≤ pc.toNat + 1 then some ⟨.outOfBoundsAccess, a, 0, a + 1, .mem⟩
      else none := by
  simp only [checkFetch, getLsbD_zero_eq_decide, Bool.and_eq_true, decide_eq_true_eq, ← BitVec.ofNat_toNat,
    BitVec.ofNat_add]
  rfl

/-- A cycle whose fetch check fails enters that fault, whatever EXT_OPCODES is (R105, R106). -/
theorem cycle_of_checkFetch_eq_some {c : Params} {ext : ExtOpcodes c} {s : State c} {r : FaultRecord}
    (hf : s.fault = none) (hm : s.refusalMark = false) (hr : checkFetch c s.pc = some r) :
    cycle s ext = .next { s with ran := true, fault := some r } := by
  simp only [cycle, hf, hm, runCycle, hr, raise_eq]
  rfl

/-- Settles O11: the check in numbers, the fault entry, and this hardware's parameters. -/
theorem fetchCheckFaults : Obligations.FetchCheckFaults :=
  ⟨checkFetch_eq, fun _ _ _ _ => cycle_of_checkFetch_eq_some, rfl, rfl, rfl, step_eq⟩

end Sys2Proof.Machine

/-! The control family (40_control.md R130 to R133) and the end of a run that it makes, PARKED (R286). -/

namespace Sys2Proof.Machine

/-! ### A parked instance (R132, R286) -/

/-- A jump's word is decoded by its first nibble, in either mode (R107). -/
theorem decode_encode_jp (nnn : BitVec 12) (ext : Bool) : decode (encode (.jp nnn)) ext = .instr (.jp nnn) := by
  simp only [decode, encode, fieldOp_encA, fieldNnn_encA]

theorem exec_jp (nnn : BitVec 12) (s : State) : exec (.jp nnn) s = .next { s with pc := zextNnn nnn } := rfl

/-- Neither the fetch nor the jump reads `ran`. -/
theorem State.Parked.setRan {s : State} (h : s.Parked) : State.Parked { s with ran := true } := h

/-- The jump to itself writes to PC the value it has (R132). -/
theorem State.Parked.step_next {s : State} (h : s.Parked) : step s = .next { s with ran := true } := by
  obtain ⟨hfetch, nnn, hword, hpc⟩ := h
  rw [step_of_canFetch hfetch, hword, execWord_instr (decode_encode_jp nnn _), exec_jp, hpc]

/-- What the host's cycle leaves when the step answers a next state, faulted or not (R104). -/
theorem cycleOp_of_step_next {s t : State} (h : step s = .next t) : (cycleOp s).2 = t := by
  rw [cycleOp, cycle_eq_step, h]
  cases ht : t.fault <;> simp only [ht]

theorem State.Parked.runOps_cycles {s : State} (h : s.Parked) (n : Nat) :
    runOps (List.replicate (n + 1) .cycle) s = { s with ran := true } := by
  induction n generalizing s with
  | zero => exact cycleOp_of_step_next h.step_next
  | succ n ih =>
    calc runOps (List.replicate (n + 2) .cycle) s
      _ = runOps (List.replicate (n + 1) .cycle) (cycleOp s).2 := rfl
      _ = runOps (List.replicate (n + 1) .cycle) { s with ran := true } := by rw [cycleOp_of_step_next h.step_next]
      _ = { s with ran := true } := ih h.setRan

/-- Settles O59: no cycle leaves the state as it is, and any other number of them sets `ran`. -/
theorem parkedIsFixedPoint : Obligations.ParkedIsFixedPoint := by
  intro s n h
  refine ⟨?_, h.runOps_cycles n⟩
  cases n with
  | zero => exact h
  | succ n =>
    rw [h.runOps_cycles n]
    exact h.setRan

/-! ### The call stack (R38) -/

section callStack

variable {c : Params}

theorem popThen_nil {w : Word} {s : State c} {k : BitVec c.stackEntryWidth → State c → Result c} (h : s.stack = []) :
    popThen w s k = raise (stackFault .stackUnderflow w s) s := by
  simp only [popThen, h, List.getLast?_nil]

theorem pushThen_pass {w : Word} {a : BitVec c.stackEntryWidth} {s : State c} {k : State c → Result c}
    (h : s.stack.length < c.stackDepth) : pushThen w a s k = k { s with stack := s.stack ++ [a] } :=
  if_neg (Nat.not_le.2 h)

theorem pushThen_fail {w : Word} {a : BitVec c.stackEntryWidth} {s : State c} {k : State c → Result c}
    (h : c.stackDepth ≤ s.stack.length) : pushThen w a s k = raise (stackFault .stackOverflow w s) s :=
  if_pos h

/-- A stack fault has no address, and its space is Mem (R232). -/
theorem raise_stackFault (kind : FaultKind) (w : Word) (s : State c) :
    raise (stackFault kind w s) s = .next (s.faultedWith kind w 0 .mem) := rfl

end callStack

/-! ### The words and the next states (R130 to R133) -/

theorem zextNnn_eq_ofNat {w : Nat} (nnn : BitVec 12) : (zextNnn nnn : BitVec w) = BitVec.ofNat w nnn.toNat :=
  (BitVec.ofNat_toNat w nnn).symm

theorem toNat_encode_call (nnn : BitVec 12) : (encode (.call nnn)).toNat = 0x2000 + nnn.toNat := toNat_encA 2 nnn

theorem exec_ret (s : State) : exec .ret s = popThen (encode .ret) s fun a t => .next (t.setPc a) := by
  simp only [exec, execRet, zext_self]

theorem exec_call (nnn : BitVec 12) (s : State) :
    exec (.call nnn) s =
      pushThen (encode (.call nnn)) (s.pc + 2) s fun t => .next (t.setPc (BitVec.ofNat 16 nnn.toNat)) := by
  simp only [exec, execCall, zext_self, zextNnn_eq_ofNat]

/-- Settles O27: the framebuffer is the blank one of the active mode. -/
theorem clsClearsFramebuffer : Obligations.ClsClearsFramebuffer := by
  refine ⟨rfl, fun s => ⟨s.fb.clear, rfl, ?_, fun x y _ _ => ?_⟩⟩
  · exact Framebuffer.activeExt_blank s.fb.activeExt
  · exact Framebuffer.get_blank s.fb.activeExt x y

/-- Settles O28, by whether the stack holds a last entry. -/
theorem retPopsOrUnderflows : Obligations.RetPopsOrUnderflows := by
  refine ⟨rfl, fun s rest a hs => ?_, fun s hs => ?_⟩
  · rw [exec_ret, popThen_concat hs]
    rfl
  · rw [exec_ret, popThen_nil hs, raise_stackFault]
    rfl

/-- Settles O29: the word is the nibble 1 before NNN, and the jump writes PC alone. -/
theorem jpSetsPc : Obligations.JpSetsPc := by
  refine fun nnn s => ⟨toNat_encA 1 nnn, ?_⟩
  rw [exec_jp, zextNnn_eq_ofNat]

/-- Settles O30, by the length of the stack. -/
theorem callPushesOrOverflows : Obligations.CallPushesOrOverflows := by
  refine fun nnn s => ⟨toNat_encode_call nnn, fun hlt => ?_, fun hfull => ?_⟩
  · rw [exec_call, pushThen_pass hlt]
    rfl
  · have hword : encode (.call nnn) = BitVec.ofNat 16 (0x2000 + nnn.toNat) :=
      (BitVec.toNat_eq_nat.1 (toNat_encode_call nnn)).2
    rw [exec_call, pushThen_fail hfull.ge, raise_stackFault, hword]

end Sys2Proof.Machine

/-! The conditional skip family (41_skip.md R140 to R143): the two ways a skip goes, and the comparison each makes. -/

namespace Sys2Proof.Machine

/-- A skip writes PC alone: PC + 4 where the condition holds, else PC + 2 (R36, R112). -/
theorem State.skipIf_decide {c : Params} (p : Prop) [Decidable p] (s : State c) :
    s.skipIf (decide p) = { s with pc := if p then s.pc + 4 else s.pc + 2 } := by
  simp only [State.skipIf, State.setPc, decide_eq_true_eq]

/-! ### The comparisons (R140 to R143) -/

theorem exec_seB (x : Reg) (nn : Byte) (s : State) :
    exec (.seB x nn) s = .next (s.skipIf (decide (s.getV x = nn))) := by
  simp only [exec, execSeB, zext_self, beq_eq_decide]

theorem exec_sneB (x : Reg) (nn : Byte) (s : State) :
    exec (.sneB x nn) s = .next (s.skipIf (decide (s.getV x ≠ nn))) := by
  simp only [exec, execSneB, zext_self, bne, beq_eq_decide, ne_eq, decide_not]

theorem exec_seR (x y : Reg) (s : State) :
    exec (.seR x y) s = .next (s.skipIf (decide (s.getV x = s.getV y))) := by
  simp only [exec, execSeR, beq_eq_decide]

theorem exec_sneR (x y : Reg) (s : State) :
    exec (.sneR x y) s = .next (s.skipIf (decide (s.getV x ≠ s.getV y))) := by
  simp only [exec, execSneR, bne, beq_eq_decide, ne_eq, decide_not]

/-! ### The words and the next states -/

/-- Settles O31: each word is a nibble before X and NN, and each skip writes PC alone. -/
theorem skipOnLiteral : Obligations.SkipOnLiteral := by
  refine fun x nn s => ⟨toNat_encXB 3 x nn, toNat_encXB 4 x nn, ?_, ?_⟩
  · rw [exec_seB, State.skipIf_decide]
  · rw [exec_sneB, State.skipIf_decide]

/-- Settles O32: each word is a nibble before X, Y and the nibble 0, and each skip writes PC alone. -/
theorem skipOnRegister : Obligations.SkipOnRegister := by
  refine fun x y s => ⟨toNat_encXY 5 0 x y, toNat_encXY 9 0 x y, ?_, ?_⟩
  · rw [exec_seR, State.skipIf_decide]
  · rw [exec_sneR, State.skipIf_decide]

end Sys2Proof.Machine

/-! The register operations family (42_register.md R150 to R162): what each result and each flag comes to in numbers, and
the state after an instruction that writes VF as a flag. -/

namespace Sys2Proof.Machine

/-! ### The words (R152 to R160) -/

/-- A word of the family 8: the nibbles X and Y above the operation N. -/
theorem toNat_encXY_eight (n : BitVec 4) (x y : Reg) :
    (encXY 8 x y n).toNat = 0x8000 + n.toNat + 256 * x.val + 16 * y.val := by
  rw [toNat_encXY, show (8 : BitVec 4).toNat = 8 from rfl]
  omega

/-! ### The results and the flags in numbers (R161) -/

section values

variable (a b : Byte)

theorem sub_eq_ofNat : a - b = BitVec.ofNat 8 (256 + a.toNat - b.toNat) := by
  rw [BitVec.sub_def, Nat.sub_add_comm b.isLt.le]

/-- The difference is that of the integers mod 256, borrow or none. -/
theorem toNat_sub_eq_int_emod : ((a - b).toNat : Int) = (a.toNat - b.toNat : Int) % 256 := by
  rw [BitVec.toNat_sub]
  omega

theorem ushiftRight_one_eq_ofNat : a >>> 1 = BitVec.ofNat 8 (a.toNat / 2) :=
  (BitVec.toNat_eq_nat.1 (BitVec.toNat_ushiftRight a 1)).2

theorem shiftLeft_one_eq_ofNat : a <<< 1 = BitVec.ofNat 8 (2 * a.toNat) := by
  apply BitVec.eq_of_toNat_eq
  rw [BitVec.toNat_shiftLeft, BitVec.toNat_ofNat, Nat.shiftLeft_eq, pow_one, mul_comm]

/-- The flag of a shift right is the remainder of the halving (R158). -/
theorem toNat_lowBit : (lowBit a).toNat = a.toNat % 2 := by
  rw [lowBit, BitVec.getLsbD, Nat.toNat_testBit, pow_zero, Nat.div_one]

/-- The flag of a shift left is the bit of weight 128 (R160). -/
theorem toNat_highBit : (highBit a).toNat = a.toNat / 128 := by
  rw [highBit, BitVec.getLsbD, Nat.toNat_testBit]
  omega

theorem toNat_flagByte (f : Bool) : (flagByte f : Byte).toNat = f.toNat := by
  cases f <;> rfl

theorem flagByte_eq_ofNat (f : Bool) : (flagByte f : Byte) = BitVec.ofNat 8 f.toNat :=
  (BitVec.toNat_eq_nat.1 (toNat_flagByte f)).2

theorem flagByte_decide (p : Prop) [Decidable p] : (flagByte (decide p) : Byte) = if p then 1 else 0 := by
  simp only [flagByte, decide_eq_true_eq]

theorem flagByte_eq_one {f : Bool} : (flagByte f : Byte) = 1 ↔ f = true := by
  cases f <;> decide

theorem flagByte_eq_zero_or_one (f : Bool) : (flagByte f : Byte) = 0 ∨ (flagByte f : Byte) = 1 := by
  cases f
  · exact .inl rfl
  · exact .inr rfl

end values

/-! ### The instructions that write no flag (R150 to R155) -/

section plainWriters

variable (x y : Reg) (nn : Byte) (s : State)

theorem exec_ldB : exec (.ldB x nn) s = .next (s.setV x nn).advance := by
  simp only [exec, execLdB, zext_self]

theorem exec_addB : exec (.addB x nn) s = .next (s.setV x (s.getV x + nn)).advance := by
  simp only [exec, execAddB, zext_self]

theorem exec_ldR : exec (.ldR x y) s = .next (s.setV x (s.getV y)).advance := rfl

theorem exec_or : exec (.or x y) s = .next (s.setV x (s.getV x ||| s.getV y)).advance := rfl

theorem exec_and : exec (.and x y) s = .next (s.setV x (s.getV x &&& s.getV y)).advance := rfl

theorem exec_xor : exec (.xor x y) s = .next (s.setV x (s.getV x ^^^ s.getV y)).advance := rfl

/-- A register write that sets no flag changes V[x] and PC and nothing else, VF included unless x is F. -/
theorem State.setV_advance (b : Byte) : (s.setV x b).advance = { s with v := s.v.set x b, pc := s.pc + 2 } := rfl

end plainWriters

/-- Settles O33: each word is a nibble before X and NN, and each instruction is one register write. -/
theorem loadAndAddLiteral : Obligations.LoadAndAddLiteral := by
  refine fun x nn s => ⟨toNat_encXB 6 x nn, toNat_encXB 7 x nn, ?_, ?_⟩
  · rw [exec_ldB, State.setV_advance]
  · rw [exec_addB, BitVec.add_def, State.setV_advance]

/-- Settles O34: each instruction is one register write. -/
theorem copyAndBitwise : Obligations.CopyAndBitwise := by
  refine fun x y s => ⟨toNat_encXY_eight 0 x y, toNat_encXY_eight 1 x y, toNat_encXY_eight 2 x y,
    toNat_encXY_eight 3 x y, ?ldR, ?or, ?and, ?xor⟩
  case ldR => rw [exec_ldR, State.setV_advance]
  case or => rw [exec_or, State.setV_advance]
  case and => rw [exec_and, State.setV_advance]
  case xor => rw [exec_xor, State.setV_advance]

/-! ### The instructions that write VF as a flag (R156 to R160, R162) -/

section flagWriters

variable (x y : Reg) (s : State)

theorem exec_addR :
    exec (.addR x y) s =
      .next (s.setVFlag x (s.getV x + s.getV y) (decide (255 < (s.getV x).toNat + (s.getV y).toNat))).advance := rfl

theorem exec_sub :
    exec (.sub x y) s =
      .next (s.setVFlag x (s.getV x - s.getV y) (decide ((s.getV y).toNat ≤ (s.getV x).toNat))).advance := rfl

theorem exec_subn :
    exec (.subn x y) s =
      .next (s.setVFlag x (s.getV y - s.getV x) (decide ((s.getV x).toNat ≤ (s.getV y).toNat))).advance := rfl

theorem exec_shr :
    exec (.shr x y) s = .next (s.setVFlag x (s.getV x >>> 1) (lowBit (s.getV x))).advance := rfl

theorem exec_shl :
    exec (.shl x y) s = .next (s.setVFlag x (s.getV x <<< 1) (highBit (s.getV x))).advance := rfl

variable {x s} {i : Instr} {b : Byte} {f : Bool}

/-- A flag writer changes V[x], then VF, and PC, and nothing else. -/
theorem State.setVFlag_advance :
    (s.setVFlag x b f).advance = { s with v := (s.v.set x b).set 15 (flagByte f), pc := s.pc + 2 } := rfl

/-- VF ends holding the flag, whatever x is. -/
theorem exists_vf_eq_flagByte (h : exec i s = .next (s.setVFlag x b f).advance) :
    ∃ t, exec i s = .next t ∧ t.getV 15 = flagByte f :=
  ⟨_, h, State.getV_setVFlag_vf s x b f⟩

/-- With x other than F the result stays in V[x], beside the flag in VF. -/
theorem exists_getV_eq_result {p : Prop} [Decidable p] (hx : x ≠ 15)
    (h : exec i s = .next (s.setVFlag x b (decide p)).advance) :
    ∃ t, exec i s = .next t ∧ t.getV x = b ∧ (t.getV 15 = 1 ↔ p) ∧ (t.getV 15 = 0 ∨ t.getV 15 = 1) := by
  have hvf : (s.setVFlag x b (decide p)).advance.getV 15 = flagByte (decide p) := State.getV_setVFlag_vf s x b _
  refine ⟨_, h, (State.getV_setVFlag_other s x b _ hx).trans (if_pos rfl), ?_, ?_⟩
  · rw [hvf, flagByte_eq_one, decide_eq_true_eq]
  · rw [hvf]
    exact flagByte_eq_zero_or_one _

end flagWriters

/-- Settles O35: the sum of two bytes as a number, and its carry. -/
theorem addWithCarry : Obligations.AddWithCarry := by
  refine fun x y s => ⟨toNat_encXY_eight 4 x y, ?_⟩
  rw [exec_addR, BitVec.add_def, State.setVFlag_advance, flagByte_decide]

/-- Settles O36: SUBN is SUB with the operands exchanged. -/
theorem subtractBothOrders : Obligations.SubtractBothOrders := by
  refine fun x y s => ⟨toNat_encXY_eight 5 x y, toNat_encXY_eight 7 x y, ?_, ?_⟩
  · rw [exec_sub, sub_eq_ofNat, State.setVFlag_advance, flagByte_decide]
  · rw [exec_subn, sub_eq_ofNat, State.setVFlag_advance, flagByte_decide]

/-- Settles O37: the shifts halve and double V[x], and the bit shifted out is the remainder by 2 or the
quotient by 128. -/
theorem shiftByOne : Obligations.ShiftByOne := by
  refine fun x y s => ⟨toNat_encXY_eight 6 x y, toNat_encXY_eight 14 x y, ?_, ?_⟩
  · rw [exec_shr, ushiftRight_one_eq_ofNat, State.setVFlag_advance, flagByte_eq_ofNat, toNat_lowBit]
  · rw [exec_shl, shiftLeft_one_eq_ofNat, State.setVFlag_advance, flagByte_eq_ofNat, toNat_highBit]

/-! ### The laws over all operands -/

/-- Settles O38: with x other than F the result of each flag writer stays in V[x]; the literal add writes V[x] alone. -/
theorem unsignedArithmeticLaw : Obligations.UnsignedArithmeticLaw := by
  refine fun x y s hx => ⟨?addR, ?sub, ?subn, fun nn => ?addB⟩
  case addR =>
    obtain ⟨t, ht, hresult, hflag⟩ := exists_getV_eq_result hx (exec_addR x y s)
    exact ⟨t, ht, hresult ▸ BitVec.toNat_add _ _, hflag⟩
  case sub =>
    obtain ⟨t, ht, hresult, hflag⟩ := exists_getV_eq_result hx (exec_sub x y s)
    exact ⟨t, ht, hresult ▸ toNat_sub_eq_int_emod _ _, hflag⟩
  case subn =>
    obtain ⟨t, ht, hresult, hflag⟩ := exists_getV_eq_result hx (exec_subn x y s)
    exact ⟨t, ht, hresult ▸ toNat_sub_eq_int_emod _ _, hflag⟩
  case addB =>
    have hresult : (s.setV x (s.getV x + nn)).advance.getV x = s.getV x + nn := State.getV_setV_same s x _
    exact ⟨_, exec_addB x nn s, (congrArg BitVec.toNat hresult).trans (BitVec.toNat_add _ _),
      State.getV_setV_other s _ hx⟩

/-- Settles O39: with x = F the flag overwrites the result; with y = F the sum and the differences are those of
`unsignedArithmeticLaw` at y = F. -/
theorem flagWrittenLast : Obligations.FlagWrittenLast := by
  refine fun y s => ⟨?addR, ?sub, ?shr, ?subn, ?shl, fun x hx => ?oldVfAsOperand⟩
  case addR =>
    rw [← flagByte_decide]
    exact exists_vf_eq_flagByte (exec_addR 15 y s)
  case sub =>
    rw [← flagByte_decide]
    exact exists_vf_eq_flagByte (exec_sub 15 y s)
  case subn =>
    rw [← flagByte_decide]
    exact exists_vf_eq_flagByte (exec_subn 15 y s)
  case shr =>
    obtain ⟨t, ht, hvf⟩ := exists_vf_eq_flagByte (exec_shr 15 y s)
    exact ⟨t, ht, by rw [hvf, toNat_flagByte, toNat_lowBit]⟩
  case shl =>
    obtain ⟨t, ht, hvf⟩ := exists_vf_eq_flagByte (exec_shl 15 y s)
    exact ⟨t, ht, by rw [hvf, toNat_flagByte, toNat_highBit]⟩
  case oldVfAsOperand =>
    obtain ⟨⟨t, ht, hsum, -⟩, ⟨u, hu, hdiff, -⟩, ⟨v, hv, hrev, -⟩, -⟩ := unsignedArithmeticLaw x 15 s hx
    exact ⟨⟨t, ht, hsum⟩, ⟨u, hu, hdiff⟩, ⟨v, hv, hrev⟩⟩

end Sys2Proof.Machine

/-! The index, indexed jump and random family (43_index_jump_random.md R170 to R172): each instruction as the one write it
makes, the target of the indexed jump as a number, and the mask of the draw. -/

namespace Sys2Proof.Machine

theorem exec_ldI (nnn : BitVec 12) (s : State) :
    exec (.ldI nnn) s = .next { s with i := zextNnn nnn, pc := s.pc + 2 } := rfl

/-- Settles O40: the word is the nibble A before NNN, and the load writes I and PC alone. -/
theorem ldISetsIndex : Obligations.LdISetsIndex := by
  refine fun nnn s => ⟨toNat_encA 0xA nnn, ?_⟩
  rw [exec_ldI, zextNnn_eq_ofNat]

theorem exec_jpV0 (nnn : BitVec 12) (s : State) :
    exec (.jpV0 nnn) s = .next { s with pc := zextNnn nnn + zext (s.getV 0) } := rfl

/-- The widest literal and the widest byte add up to 0x10FE, so the target of the indexed jump does not wrap (R171). -/
theorem toNat_zextNnn_add_zext (nnn : BitVec 12) (b : Byte) :
    (zextNnn nnn + zext b : Addr).toNat = nnn.toNat + b.toNat := by
  have hnnn := nnn.isLt
  have hb := b.isLt
  rw [BitVec.toNat_add, toNat_zextNnn, toNat_zext]
  omega

/-- Settles O41: the word is the nibble B before NNN, and the jump writes PC alone. -/
theorem jpV0AddsV0 : Obligations.JpV0AddsV0 :=
  fun nnn s => ⟨toNat_encA 0xB nnn, _, exec_jpV0 nnn s, toNat_zextNnn_add_zext nnn (s.getV 0)⟩

/-- RND makes one draw and writes it masked (R172). -/
theorem exec_rnd (x : Reg) (nn : Byte) (s : State) :
    exec (.rnd x nn) s =
      .next { s with v := s.v.set x (s.nextDraw &&& nn), draws := s.draws + 1, pc := s.pc + 2 } := by
  simp only [exec, execRnd, zext_self]
  rfl

/-- Whatever is masked, no bit outside the mask is left (R172). -/
theorem and_mask_and_not_mask (r nn : Byte) : r &&& nn &&& ~~~nn = 0 := by
  rw [BitVec.and_assoc, BitVec.and_not_self]
  exact BitVec.and_zero

/-- Settles O42: the word is the nibble C before X and NN, and the byte masked is the next draw. -/
theorem rndMasksADraw : Obligations.RndMasksADraw :=
  fun x nn s => ⟨toNat_encXB 0xC x nn, s.nextDraw, s.draws + 1, exec_rnd x nn s, and_mask_and_not_mask _ nn⟩

end Sys2Proof.Machine

/-! The draw and input family (44_draw_input.md R180 to R184): the pixels a draw flips as those the sprite covers, a
second draw of the same sprite, and the key that a skip reads. -/

namespace Sys2Proof.Machine

/-! ### The words and the faults (R180 to R184, R232) -/

/-- The words of the key skips: the nibble E, then X above the byte NN. -/
theorem toNat_encXB_fourteen (x : Reg) (nn : Byte) : (encXB 0xE x nn).toNat = 0xE000 + nn.toNat + 256 * x.val := by
  rw [toNat_encXB, show (0xE : BitVec 4).toNat = 0xE from rfl]
  omega

theorem toNat_encode_drw (x y : Reg) (n : Fin 16) :
    (encode (.drw x y n)).toNat = 0xD000 + 256 * x.val + 16 * y.val + n.val := by
  rw [encode, toNat_encXY, toNat_toNibble]
  rfl

section faults

variable {c : Params}

theorem raise_memFault (w : Word) (a : Nat) (s : State c) :
    raise (memFault w a s) s = .next (s.faultedWith .outOfBoundsAccess w (BitVec.ofNat 16 a) .mem) := rfl

theorem raise_keyFault (w : Word) (b : BitVec c.vWidth) (s : State c) :
    raise (keyFault w b s) s = .next (s.faultedWith .outOfBoundsAccess w (BitVec.ofNat 16 b.toNat) .key) := by
  rw [raise_eq, keyFault, ← BitVec.ofNat_toNat 16 b]
  rfl

end faults

/-! ### The pixels of a sprite (R180) -/

section sprite

variable {x y : Reg} {n : Fin 16} {s : State}

theorem State.getElem_readBytes {a m k : Nat} (hk : k < (s.readBytes a m).length) :
    (s.readBytes a m)[k] = s.readByte (a + k) := by
  simp only [State.readBytes, List.getElem_map, List.getElem_range]

theorem State.length_readBytes (s : State) (a m : Nat) : (s.readBytes a m).length = m := by
  simp only [State.readBytes, List.length_map, List.length_range]

/-- The pixels that the bytes read at I are drawn on are those the sprite covers. -/
theorem State.spriteCovers_iff_listCovers {px py : Nat} :
    s.SpriteCovers x y n px py ↔
      ListCovers s.fb.width s.fb.height ((s.getV x).toNat % s.fb.width) ((s.getV y).toNat % s.fb.height)
        (s.readBytes s.base n) 0 px py := by
  constructor
  · rintro ⟨r, b, hr, hb, hbit, hx, hy⟩
    refine ⟨r, by rwa [State.length_readBytes], ⟨b, hb, ?_, hx⟩, by rwa [Nat.zero_add]⟩
    rwa [State.getElem_readBytes]
  · rintro ⟨r, hr, ⟨b, hb, hbit, hx⟩, hy⟩
    rw [State.getElem_readBytes] at hbit
    rw [State.length_readBytes] at hr
    rw [Nat.zero_add] at hy
    exact ⟨r, b, hr, hb, hbit, hx, hy⟩

/-- A sprite covers a pixel exactly when it has a 1 bit (R182). -/
theorem State.exists_spriteCovers_iff :
    (∃ px py, s.SpriteCovers x y n px py) ↔
      ∃ r b, r < n.val ∧ b < 8 ∧ (s.readByte (s.i.toNat + r)).getLsbD b = true := by
  constructor
  · rintro ⟨_, _, r, b, hr, -, hbit, -, -⟩
    exact ⟨r, 7 - b, hr, by omega, hbit⟩
  · rintro ⟨r, b, hr, hb, hbit⟩
    refine ⟨_, _, r, 7 - b, hr, by omega, ?_, rfl, rfl⟩
    rwa [show 7 - (7 - b) = b by omega]

end sprite

/-! ### The state after a draw (R180) -/

/-- The state that DRW leaves: a drawing's pixels, its `collide` in VF, and the advance. -/
def State.drawn (d : Drawing) (s : State) : State := ((s.setFb d.1).setV vf (flagByte d.2)).advance

section drawn

variable {x y : Reg} {n : Fin 16} {s : State} {d : Drawing}

/-- DRW with its sprite inside memory draws on the pixels that the sprite covers. -/
theorem exec_drw_of_fits (x y : Reg) (hm : s.i.toNat + n.val ≤ 4096) :
    ∃ d, Draws (s.fb, false) d (s.SpriteCovers x y n) ∧ exec (.drw x y n) s = .next (s.drawn d) := by
  have hlen : (s.readBytes s.base n).length ≤ 16 := by
    rw [State.length_readBytes]
    exact n.isLt.le
  exact ⟨_, (drawSprite_draws s.fb _ _ hlen).congr fun _ _ => State.spriteCovers_iff_listCovers, checkMem_pass hm⟩

theorem State.getV_drawn_vf : (s.drawn d).getV 15 = flagByte d.2 :=
  State.getV_setV_same (s.setFb d.1) vf _

theorem State.getV_drawn_other (hx : x ≠ 15) : (s.drawn d).getV x = s.getV x :=
  State.getV_setV_other (s.setFb d.1) _ hx.symm

/-- A draw moves neither the sprite nor its place, unless V[x] or V[y] is the VF it writes. -/
theorem State.spriteCovers_drawn {C : Nat → Nat → Prop} (hd : Draws (s.fb, false) d C) (hx : x ≠ 15) (hy : y ≠ 15)
    (px py : Nat) :
    (s.drawn d).SpriteCovers x y n px py ↔ s.SpriteCovers x y n px py := by
  have hw : (s.drawn d).fb.width = s.fb.width := hd.width
  have hh : (s.drawn d).fb.height = s.fb.height := hd.height
  simp only [State.SpriteCovers, State.getV_drawn_other hx, State.getV_drawn_other hy, hw, hh]
  rfl

end drawn

/-! ### Two draws on the same pixels (R182) -/

section twice

variable {C : Nat → Nat → Prop} {fb : Framebuffer} {d e : Drawing}

/-- A drawing that starts with no collision notes one exactly when a pixel drawn on was set. -/
theorem Draws.collide_iff (h : Draws (fb, false) d C) : d.2 = true ↔ ∃ px py, C px py ∧ fb.get px py = true := by
  rw [h.collide]
  simp only [Bool.false_eq_true, false_or]

/-- What one draw flips, a second one on the same pixels flips back. -/
theorem Draws.fb_eq_of_twice (h : Draws (fb, false) d C) (h' : Draws (d.1, false) e C) : e.1 = fb := by
  refine Framebuffer.eq_of_get (h'.mode.trans h.mode) fun px py _ _ => ?_
  by_cases hc : C px py
  · rw [h'.flips _ _ hc, h.flips _ _ hc, Bool.not_not]
  · rw [h'.keeps _ _ hc, h.keeps _ _ hc]

/-- The second of two draws meets a set pixel where the first met an unset one. -/
theorem Draws.collide_iff_of_twice (h : Draws (fb, false) d C) (h' : Draws (d.1, false) e C) :
    e.2 = true ↔ ∃ px py, C px py ∧ fb.get px py = false := by
  rw [h'.collide_iff]
  refine exists₂_congr fun px py => and_congr_right fun hc => ?_
  rw [h.flips _ _ hc, Bool.not_eq_true']

/-- With no collision in the first draw every pixel drawn on was unset, so the second has one if it draws at all. -/
theorem Draws.collide_iff_of_twice_clear (h : Draws (fb, false) d C) (h' : Draws (d.1, false) e C) (hd : d.2 = false) :
    e.2 = true ↔ ∃ px py, C px py := by
  rw [h.collide_iff_of_twice h']
  refine exists₂_congr fun px py => and_iff_left_of_imp fun hc => ?_
  by_contra hset
  have hcollide : d.2 = true := h.collide_iff.2 ⟨px, py, hc, Bool.eq_true_of_not_eq_false hset⟩
  exact Bool.false_ne_true (hd.symm.trans hcollide)

end twice

/-! ### The draws -/

theorem flagByte_eq_zero {f : Bool} : (flagByte f : Byte) = 0 ↔ f = false := by
  cases f <;> decide

/-- Settles O43, by whether the sprite lies inside memory. -/
theorem drwXorsSprite : Obligations.DrwXorsSprite := by
  refine fun x y n s _ => ⟨toNat_encode_drw x y n, fun hfits => ?_, fun hout => ?_⟩
  · obtain ⟨d, hd, hexec⟩ := exec_drw_of_fits x y hfits
    exact ⟨d.1, flagByte d.2, hexec, hd.mode, hd.flips, hd.keeps, flagByte_eq_one.trans hd.collide_iff,
      flagByte_eq_zero_or_one d.2⟩
  · exact (checkMem_fail hout).trans (raise_memFault _ _ s)

/-- Settles O44: the second draw is on the pixels of the first, and VF is the collision of each. -/
theorem drawTwiceRestores : Obligations.DrawTwiceRestores := by
  intro x y n s hx hy _ hfits
  obtain ⟨d, hd, ht⟩ := exec_drw_of_fits x y hfits
  obtain ⟨e, he', hu⟩ := exec_drw_of_fits (s := s.drawn d) x y hfits
  have he : Draws (d.1, false) e (s.SpriteCovers x y n) :=
    he'.congr fun px py => (State.spriteCovers_drawn hd hx hy px py).symm
  refine ⟨_, _, ht, hu, hd.fb_eq_of_twice he, ?_, fun hclear => ?_⟩
  · rw [State.getV_drawn_vf, flagByte_eq_one, hd.collide_iff_of_twice he]
  · rw [State.getV_drawn_vf, flagByte_eq_zero] at hclear
    rw [State.getV_drawn_vf, flagByte_eq_one, hd.collide_iff_of_twice_clear he hclear, State.exists_spriteCovers_iff]

/-- Settles O45, by the active mode. -/
theorem drawOfNoRows : Obligations.DrawOfNoRows := by
  refine fun x y s => ⟨toNat_encXY 0xD 0 x y, fun hstd => ?_, fun hext => ?_⟩
  · simp only [exec, execDrw0, State.activeExt, hstd]
    rfl
  · simp only [exec, execDrw0, State.activeExt, hext, if_true]

/-! ### The key skips (R183, R184) -/

theorem exec_skp (x : Reg) (s : State) :
    exec (.skp x) s =
      checkKey (encode (.skp x)) (s.getV x) s fun k => .next (s.skipIf (decide (s.keys[k] = true))) := by
  simp only [exec, execSkp, Bool.decide_eq_true]

theorem exec_sknp (x : Reg) (s : State) :
    exec (.sknp x) s =
      checkKey (encode (.sknp x)) (s.getV x) s fun k => .next (s.skipIf (decide (s.keys[k] = false))) := by
  simp only [exec, execSknp, Bool.decide_eq_false]

/-- Settles O46, by whether V[x] names a key. -/
theorem skipOnKey : Obligations.SkipOnKey := by
  refine fun x s => ⟨toNat_encXB_fourteen x 0x9E, toNat_encXB_fourteen x 0xA1, fun k hk => ⟨?_, ?_⟩,
    fun (hbad : 16 ≤ (s.getV x).toNat) => ⟨?_, ?_⟩⟩
  · rw [exec_skp, checkKey_pass hk, State.skipIf_decide]
  · rw [exec_sknp, checkKey_pass hk, State.skipIf_decide]
  · rw [exec_skp, checkKey_fail hbad, raise_keyFault]
  · rw [exec_sknp, checkKey_fail hbad, raise_keyFault]

end Sys2Proof.Machine

/-! The misc F-family (45_misc_f.md R200 to R208): each instruction as the writes it makes, the decimal digits of a byte, and
the block moves between the registers and memory. -/

namespace Sys2Proof.Machine

/-! ### The words and the faults (R200 to R208, R232) -/

/-- A word of the family F: the nibble X above the byte NN. -/
theorem toNat_encXB_fifteen (x : Reg) (nn : Byte) : (encXB 0xF x nn).toNat = 0xF000 + nn.toNat + 256 * x.val := by
  rw [toNat_encXB, show (0xF : BitVec 4).toNat = 0xF from rfl]
  omega

/-- An access that reaches outside MemoryImage is a fault at the lowest address outside it (R82, R232). -/
theorem checkMem_faulted {w : Word} {a n : Nat} {s : State} {k : Result} (h : 4096 < a + n) :
    checkMem w a n s k = .next (s.faultedWith .outOfBoundsAccess w (BitVec.ofNat 16 (max a 4096)) .mem) := by
  rw [checkMem_fail h, raise_memFault]

/-! ### The timers (R200, R202, R203) -/

section timers

variable (x : Reg) (s : State)

theorem exec_ldVxDt : exec (.ldVxDt x) s = .next (s.setV x s.dt).advance := by
  simp only [exec, execLdVxDt, zext_self]

theorem exec_ldDtVx : exec (.ldDtVx x) s = .next { s with dt := s.getV x, pc := s.pc + 2 } := by
  simp only [exec, execLdDtVx, zext_self]
  rfl

theorem exec_ldStVx : exec (.ldStVx x) s = .next { s with st := s.getV x, pc := s.pc + 2 } := by
  simp only [exec, execLdStVx, zext_self]
  rfl

end timers

/-- Settles O47: each instruction moves one value and advances. -/
theorem timerMoves : Obligations.TimerMoves := by
  refine fun x s => ⟨toNat_encXB_fifteen x 0x07, toNat_encXB_fifteen x 0x15, toNat_encXB_fifteen x 0x18, ?_,
    exec_ldDtVx x s, exec_ldStVx x s⟩
  rw [exec_ldVxDt, State.setV_advance]

/-! ### The wait for a key (R201) -/

/-- With no key pressed, LD Vx, K does nothing at all. -/
theorem exec_ldVxK_of_none {s : State} (x : Reg) (h : s.lowestKey = none) : exec (.ldVxK x) s = .next s := by
  simp only [exec, execLdVxK, h]

theorem exec_ldVxK_of_some {s : State} {k : Key} (x : Reg) (h : s.lowestKey = some k) :
    exec (.ldVxK x) s = .next (s.setV x (BitVec.ofNat 8 k.val)).advance := by
  simp only [exec, execLdVxK, h]

/-- Settles O48, by whether there is a lowest pressed key. -/
theorem waitForKey : Obligations.WaitForKey := by
  refine fun x s => ⟨toNat_encXB_fifteen x 0x0A, fun hnone => ?_, fun k hk hlow => ?_⟩
  · exact exec_ldVxK_of_none x (State.lowestKey_eq_none.2 hnone)
  · rw [exec_ldVxK_of_some x (State.lowestKey_eq_some.2 ⟨hk, hlow⟩), State.setV_advance]

/-! ### The index register (R204, R205) -/

theorem exec_addI (x : Reg) (s : State) :
    exec (.addI x) s = .next { s with i := s.i + zext (s.getV x), pc := s.pc + 2 } := rfl

theorem exec_ldF (x : Reg) (s : State) :
    exec (.ldF x) s = .next { s with i := glyphAddr .hardware (s.getV x), pc := s.pc + 2 } := rfl

/-- A byte added to an address is added mod 65536 (R204). -/
theorem add_zext_eq_ofNat (a : Addr) (b : Byte) : a + zext b = BitVec.ofNat 16 (a.toNat + b.toNat) := by
  rw [BitVec.ofNat_add, BitVec.ofNat_toNat, BitVec.ofNat_toNat, BitVec.setWidth_eq]
  rfl

/-- The glyphs of this hardware lie five bytes apart from address 0 (R205). -/
theorem glyphAddr_hardware (b : Byte) : glyphAddr .hardware b = BitVec.ofNat 16 (5 * (b.toNat % 16)) :=
  congrArg (BitVec.ofNat 16) (Nat.zero_add _)

/-- Settles O49: each instruction writes I and PC alone. -/
theorem indexArithmetic : Obligations.IndexArithmetic := by
  refine fun x s => ⟨toNat_encXB_fifteen x 0x1E, toNat_encXB_fifteen x 0x29, ?_, ?_⟩
  · rw [exec_addI, add_zext_eq_ofNat]
  · rw [exec_ldF, glyphAddr_hardware]

/-! ### The decimal digits (R206) -/

section digits

variable (b : Byte)

theorem toNat_bcdHundreds : (bcdHundreds b).toNat = b.toNat / 100 := by
  have := b.isLt
  rw [bcdHundreds, BitVec.toNat_ofNat]
  omega

theorem toNat_bcdTens : (bcdTens b).toNat = b.toNat / 10 % 10 := by
  rw [bcdTens, BitVec.toNat_ofNat]
  omega

theorem toNat_bcdOnes : (bcdOnes b).toNat = b.toNat % 10 := by
  rw [bcdOnes, BitVec.toNat_ofNat]
  omega

/-- The three digits are those of the decimal expansion. -/
theorem bcd_expansion :
    b.toNat = 100 * (bcdHundreds b).toNat + 10 * (bcdTens b).toNat + (bcdOnes b).toNat ∧
    (bcdTens b).toNat ≤ 9 ∧ (bcdOnes b).toNat ≤ 9 := by
  rw [toNat_bcdHundreds, toNat_bcdTens, toNat_bcdOnes]
  omega

end digits

/-- A byte after three consecutive cells are written. -/
theorem State.readByte_writeThree {c : Params} {s : State c} {a : Nat} (b : Nat) (b₀ b₁ b₂ : Byte)
    (h : Memory.wf s.mem c = true) (ha : a + 3 ≤ c.memSize) :
    (((s.writeByte a b₀).writeByte (a + 1) b₁).writeByte (a + 2) b₂).readByte b =
      if b = a + 2 then b₂ else if b = a + 1 then b₁ else if b = a then b₀ else s.readByte b := by
  have h₀ := State.wf_writeByte a b₀ h
  have h₁ := State.wf_writeByte (a + 1) b₁ h₀
  rw [State.readByte_writeByte b b₂ h₁ (by omega), State.readByte_writeByte b b₁ h₀ (by omega),
    State.readByte_writeByte b b₀ h (by omega)]

/-- The state that LD_BCD leaves: the three digits of V[x] at I upwards, and the advance. -/
def State.withDigits (x : Reg) (s : State) : State :=
  (((s.writeByte s.base (bcdHundreds (s.getV x))).writeByte (s.base + 1) (bcdTens (s.getV x))).writeByte (s.base + 2)
    (bcdOnes (s.getV x))).advance

theorem exec_ldBcd_of_fits {x : Reg} {s : State} (h : s.base + 3 ≤ 4096) :
    exec (.ldBcd x) s = .next (s.withDigits x) :=
  checkMem_pass h

/-- The three cells that LD_BCD writes hold the digits, hundreds first. -/
theorem State.readByte_withDigits {s : State} (x : Reg) (hwf : Memory.wf s.mem = true) (h : s.base + 3 ≤ 4096) :
    (s.withDigits x).readByte s.base = bcdHundreds (s.getV x) ∧
    (s.withDigits x).readByte (s.base + 1) = bcdTens (s.getV x) ∧
    (s.withDigits x).readByte (s.base + 2) = bcdOnes (s.getV x) := by
  have hread : ∀ a, (s.withDigits x).readByte a =
      if a = s.base + 2 then bcdOnes (s.getV x) else if a = s.base + 1 then bcdTens (s.getV x)
      else if a = s.base then bcdHundreds (s.getV x) else s.readByte a :=
    fun a => State.readByte_writeThree a _ _ _ hwf h
  simp [hread]

/-- Every byte but those three is as it was. -/
theorem State.readByte_withDigits_other {s : State} {a : Nat} (x : Reg) (hwf : Memory.wf s.mem = true)
    (h : s.base + 3 ≤ 4096) (ha : a < s.base ∨ s.base + 3 ≤ a) : (s.withDigits x).readByte a = s.readByte a :=
  State.readByte_writeThree_other _ _ _ hwf h ha

/-- Settles O50, by whether the three cells lie inside memory. -/
theorem bcdDigits : Obligations.BcdDigits := by
  refine fun x s hwf => ⟨toNat_encXB_fifteen x 0x33, fun hfits => ?_, fun hout => ?_⟩
  · obtain ⟨hhundreds, htens, hones⟩ := State.readByte_withDigits x hwf hfits
    rw [State.base] at hhundreds htens hones
    refine ⟨s.withDigits x, exec_ldBcd_of_fits hfits, rfl, ?_⟩
    rw [hhundreds, htens, hones]
    obtain ⟨hsum, htens_le, hones_le⟩ := bcd_expansion (s.getV x)
    exact ⟨hsum, htens_le, hones_le, fun a ha => State.readByte_withDigits_other x hwf hfits ha⟩
  · exact checkMem_faulted (Nat.lt_succ_of_le hout)

/-! ### The block moves (R207, R208) -/

/-- Settles O51, by whether the last cell lies inside memory: the block stored is V0 to V[x] and nothing else. -/
theorem registersStored : Obligations.RegistersStored := by
  refine fun x s hwf => ⟨toNat_encXB_fifteen x 0x55, fun hfits => ?_, fun hout => ?_⟩
  · refine ⟨_, exec_ldMemVx_of_fits hfits, ?_, fun k hk => ?_, fun a ha => ?_⟩
    · rw [State.storeRegs_eq]
      rfl
    · exact (State.readByte_storeRegs hwf x.isLt hfits k (Nat.lt_succ_of_le hk)).trans (zext_self _)
    · exact State.readByte_storeRegs_other hwf hfits a ha
  · exact checkMem_faulted (Nat.lt_succ_of_le hout)

/-- LD_VX_MEM inside memory loads the registers and advances. -/
theorem exec_ldVxMem_of_fits {x : Reg} {s : State} (h : s.base + (x.val + 1) ≤ 4096) :
    exec (.ldVxMem x) s = .next (s.loadRegs s.base (x.val + 1)).advance :=
  checkMem_pass h

/-- Settles O52, by whether the last cell lies inside memory: the registers loaded are V0 to V[x]. -/
theorem registersLoaded : Obligations.RegistersLoaded := by
  refine fun x s => ⟨toNat_encXB_fifteen x 0x65, fun hfits => ?_, fun hout => ?_⟩
  · refine ⟨_, exec_ldVxMem_of_fits hfits, ?_, fun k => ?_⟩
    · rw [State.loadRegs_eq]
      rfl
    · have hk : k.val < x.val + 1 ↔ k ≤ x := Nat.lt_succ_iff
      have hload := State.getV_loadRegs (a := s.base) (s := s) x.isLt k
      simp only [hk, zext_self] at hload
      exact hload
  · exact checkMem_faulted (Nat.lt_succ_of_le hout)

end Sys2Proof.Machine

/-! The active mode and the extended space (46_extended.md R221 to R224): only reset changes the mode, and a word that the mode
refuses has no step. -/

namespace Sys2Proof.Machine

/-! ### The active mode (R224) -/

/-- No instruction switches resolution, faulted or completed. -/
theorem exec_keeps_activeExt {i : Instr} {s t : State} (h : exec i s = .next t) :
    t.fb.activeExt = s.fb.activeExt := by
  obtain ⟨r, -, rfl⟩ | hc := exec_next h
  · rfl
  · obtain hfb | ⟨hmode, -⟩ := hc.fb_cases
    · exact congrArg Framebuffer.activeExt hfb
    · exact hmode

/-- Neither a fetch fault nor a DecodeFault touches the framebuffer, so what holds of the instructions holds of a step. -/
theorem step_keeps_activeExt {s t : State} (h : step s = .next t) : t.fb.activeExt = s.fb.activeExt := by
  obtain ⟨-, -, ⟨r, -, rfl⟩ | ⟨-, ⟨i, -, hi⟩ | ⟨-, rfl⟩⟩⟩ := step_next h
  · rfl
  · exact exec_keeps_activeExt (s := { s with ran := true }) hi
  · rfl

theorem cycleOp_keeps_activeExt (s : State) : (cycleOp s).2.fb.activeExt = s.fb.activeExt := by
  obtain h | h | h := cycleOp_cases s
  · exact step_keeps_activeExt h
  · rw [h]
  · rw [h]
    rfl

/-- A load writes memory or the refusal mark, never the framebuffer (R272 to R274). -/
theorem loadOp_keeps_fb (image : Option (List Byte)) (s : State) : (loadOp image s).2.fb = s.fb := by
  obtain ⟨bytes, h⟩ | h | h := loadOp_cases image s
  · rw [h, copyBytes_eq]
  · rw [h]
  · rw [h]
    rfl

/-- Settles O20, by cases on the host's operation: but for the cycle, none other than reset writes the framebuffer, and
reset blanks it in the mode that the flag names. -/
theorem activeModeChangesOnlyAtReset : Obligations.ActiveModeChangesOnlyAtReset := by
  refine ⟨fun op s hne => ?_, fun s => Framebuffer.activeExt_blank s.modeExt⟩
  cases op with
  | reset => exact absurd rfl hne
  | load image => exact congrArg Framebuffer.activeExt (loadOp_keeps_fb image s)
  | cycle => exact cycleOp_keeps_activeExt s
  | setExtendedMode | tickTimers | setKey => rfl

/-! ### A refused word (R221, R240) -/

/-- With EXT_OPCODES open, as on this hardware, a word of the extended space has no step in extended mode (R221). -/
theorem step_of_refusedExt {s : State} (hc : s.CanFetch) (hr : decode s.fetchWord s.fb.activeExt = .refusedExt) :
    step s = .refused (.extendedOpcode s.fetchWord) := by
  rw [step_of_canFetch hc, execWord_refusedExt (s := { s with ran := true }) hr]
  rfl

/-- The host's cycle marks the state that a refused step began in, so `ran` too is as it was (R240). -/
theorem cycleOp_of_step_refused {s : State} {r : Refusal} (h : step s = .refused r) :
    cycleOp s = (.refused r, markRefused s) := by
  rw [cycleOp, cycle_eq_step, h]

/-- Settles O9: the step is refused, and the host's cycle marks the state for it. -/
theorem refusedWordSetsMark : Obligations.RefusedWordSetsMark := fun _ hc hr =>
  have hstep := step_of_refusedExt hc hr
  ⟨hstep, cycleOp_of_step_refused hstep⟩

end Sys2Proof.Machine

/-! Faults, refusals, timers and the host's bits (60_exceptions.md R231 to R256): what a latched fault and the refusal mark
stop, which instruction raises what, and what each tick takes from the timers. -/

namespace Sys2Proof.Machine

/-! ### The refusal mark (R240) -/

/-- A marked state with no latched fault refuses the cycle before any fetch (R240; log 3). -/
theorem step_of_refusalMark {s : State} (hf : s.fault = none) (hm : s.refusalMark = true) :
    step s = .refused .refusalMarked := by
  simp only [step_eq, cycle, hf, hm, if_true]

/-- A step that answers a next state began unmarked, so from a marked state the cycle leaves the state or marks it again. -/
theorem cycleOp_keeps_refusalMark {s : State} (hm : s.refusalMark = true) : (cycleOp s).2.refusalMark = true := by
  obtain h | h | h := cycleOp_cases s
  · obtain ⟨-, hunmarked, -⟩ := step_next h
    exact absurd (hm.symm.trans hunmarked) nofun
  · rw [h, hm]
  · rw [h]
    rfl

theorem loadOp_keeps_refusalMark (image : Option (List Byte)) {s : State} (hm : s.refusalMark = true) :
    (loadOp image s).2.refusalMark = true := by
  obtain ⟨bytes, h⟩ | h | h := loadOp_cases image s
  · rw [h, copyBytes_eq]
    exact hm
  · rw [h, hm]
  · rw [h]
    rfl

theorem transact_keeps_refusalMark {op : HostOp} {s : State} (hne : op ≠ .reset) (hm : s.refusalMark = true) :
    (transact op s).2.refusalMark = true := by
  cases op with
  | reset => exact absurd rfl hne
  | load image => exact loadOp_keeps_refusalMark image hm
  | cycle => exact cycleOp_keeps_refusalMark hm
  | setExtendedMode | tickTimers | setKey => exact hm

/-- Settles O10: reset clears the mark, and every other operation keeps it. -/
theorem refusalMarkStays : Obligations.RefusalMarkStays := by
  refine ⟨fun op s hm => ⟨fun hclear => ?_, fun hreset => hreset ▸ rfl⟩, fun _ hm hf => step_of_refusalMark hf hm⟩
  by_contra hne
  exact absurd ((transact_keeps_refusalMark hne hm).symm.trans hclear) nofun

/-! ### The latched fault (R236) -/

section latched

variable {s : State} {r : FaultRecord}

theorem step_of_fault (hr : s.fault = some r) : step s = .fault (.latched r) := by
  simp only [step_eq, cycle, hr]

theorem cycleOp_of_fault (hr : s.fault = some r) : cycleOp s = (.fault r, s) := by
  rw [cycleOp, cycle_eq_step, step_of_fault hr]

/-- A load writes memory or the refusal mark, never the fault record (R272 to R274). -/
theorem loadOp_keeps_fault (image : Option (List Byte)) (s : State) : (loadOp image s).2.fault = s.fault := by
  obtain ⟨bytes, h⟩ | h | h := loadOp_cases image s
  · rw [h, copyBytes_eq]
  · rw [h]
  · rw [h]
    rfl

theorem transact_keeps_latched_fault {op : HostOp} (hne : op ≠ .reset) (hr : s.fault = some r) :
    (transact op s).2.fault = some r := by
  cases op with
  | reset => exact absurd rfl hne
  | load image => exact (loadOp_keeps_fault image s).trans hr
  | cycle => exact (congrArg (·.2.fault) (cycleOp_of_fault hr)).trans hr
  | setExtendedMode | tickTimers | setKey => exact hr

end latched

/-- Settles O12: the latched record answers the step and the cycle, and no operation but reset writes it. -/
theorem latchedFaultHasNoStep : Obligations.LatchedFaultHasNoStep := fun _ _ hr =>
  ⟨step_of_fault hr, cycleOp_of_fault hr, fun _ hne => transact_keeps_latched_fault hne hr, rfl⟩

/-! ### Fault entry (R231, R234, R239) -/

/-- An instruction that ends with a fault it did not begin with has raised it, and has written the record and `ran` alone. -/
theorem exec_fault {i : Instr} {s t : State} {r : FaultRecord} (hf : s.fault = none) (h : exec i s = .next t)
    (hr : t.fault = some r) : Raises s i r ∧ t = { s with ran := true, fault := some r } := by
  obtain ⟨r', hraises, rfl⟩ | hc := exec_next h
  · cases hr
    exact ⟨hraises, rfl⟩
  · exact absurd ((hc.fault_eq.trans hf).symm.trans hr) nofun

/-- Settles O13, by cases on what the step did: a fetch fault, an instruction, or a DecodeFault, which latches nothing. -/
theorem faultEntryIsPrecise : Obligations.FaultEntryIsPrecise := by
  intro s t r hstep hr
  obtain ⟨hf, -, ⟨r', hfetch, rfl⟩ | ⟨-, ⟨i, -, hi⟩ | ⟨-, rfl⟩⟩⟩ := step_next hstep
  · cases hr
    exact ⟨rfl, (checkFetch_eq_some hfetch).1⟩
  · obtain ⟨hraises, rfl⟩ := exec_fault (s := { s with ran := true }) hf hi hr
    exact ⟨rfl, hraises.pc_eq⟩
  · exact absurd (hf.symm.trans hr) nofun

/-- Settles O14, by cases on the record that the instruction raised. -/
theorem onlyTheseInstructionsFault : Obligations.OnlyTheseInstructionsFault := by
  intro i s t r hf h hr
  obtain ⟨hraises, -⟩ := exec_fault hf h hr
  cases hraises <;> exact ⟨rfl, rfl, rfl⟩

/-! ### Every check goes on or raises (R223, R239) -/

section answers

variable {c : Params} {w : Word} {s : State c}

/-- A range check answers a next state when what it guards does; the fault entry is one too (R234). -/
theorem checkMem_answers_next {a n : Nat} {k : Result c} (hk : ∃ t, k = .next t) :
    ∃ t, checkMem w a n s k = .next t := by
  unfold checkMem
  split
  · exact ⟨_, raise_eq _ s⟩
  · exact hk

theorem checkKey_answers_next {b : BitVec c.vWidth} {k : Key c → Result c} (hk : ∀ j, ∃ t, k j = .next t) :
    ∃ t, checkKey w b s k = .next t := by
  unfold checkKey
  split
  · exact hk _
  · exact ⟨_, raise_eq _ s⟩

theorem pushThen_answers_next {a : BitVec c.stackEntryWidth} {k : State c → Result c} (hk : ∀ u, ∃ t, k u = .next t) :
    ∃ t, pushThen w a s k = .next t := by
  unfold pushThen
  split
  · exact ⟨_, raise_eq _ s⟩
  · exact hk _

theorem popThen_answers_next {k : BitVec c.stackEntryWidth → State c → Result c} (hk : ∀ a u, ∃ t, k a u = .next t) :
    ∃ t, popThen w s k = .next t := by
  unfold popThen
  split
  · exact ⟨_, raise_eq _ s⟩
  · exact hk _ _

end answers

/-- Settles O15, by cases on the instruction: a checked one goes on or raises, FX0A waits or completes, and DXY0 depends on
the active mode. -/
theorem everyInstructionAnswersNext : Obligations.EveryInstructionAnswersNext := by
  intro i s
  cases i with
  | drw0 x y =>
    cases hm : s.fb.activeExt with
    | true => exact .inr ⟨x, y, rfl, rfl, if_pos hm⟩
    | false => exact .inl ⟨s.advance, if_neg (Bool.eq_false_iff.1 hm)⟩
  | ret => exact .inl (popThen_answers_next fun _ _ => ⟨_, rfl⟩)
  | call nnn => exact .inl (pushThen_answers_next fun _ => ⟨_, rfl⟩)
  | skp x =>
    rw [exec_skp]
    exact .inl (checkKey_answers_next fun _ => ⟨_, rfl⟩)
  | sknp x =>
    rw [exec_sknp]
    exact .inl (checkKey_answers_next fun _ => ⟨_, rfl⟩)
  | drw | ldBcd | ldMemVx | ldVxMem => exact .inl (checkMem_answers_next ⟨_, rfl⟩)
  | ldVxK x =>
    cases hk : s.lowestKey with
    | none => exact .inl ⟨_, exec_ldVxK_of_none x hk⟩
    | some k => exact .inl ⟨_, exec_ldVxK_of_some x hk⟩
  | _ => exact .inl ⟨_, rfl⟩

/-! ### The host's ticks and bits (R250, R256, R276) -/

/-- One tick before `n` more takes `n + 1` from a timer, floored at 0 (R250). -/
theorem ofNat_toNat_tick_sub (b : Byte) (n : Nat) :
    BitVec.ofNat 8 ((tick b).toNat - n) = BitVec.ofNat 8 (b.toNat - (n + 1)) := by
  rw [toNat_tick, Nat.sub_sub, Nat.add_comm]

/-- Settles O57, by induction on the number of ticks. -/
theorem ticksCountDown : Obligations.TicksCountDown := by
  intro n
  induction n with
  | zero =>
    intro s
    simp only [Nat.sub_zero, BitVec.ofNat_toNat, BitVec.setWidth_eq]
    rfl
  | succ n ih =>
    intro s
    calc runOps (List.replicate (n + 1) .tickTimers) s
      _ = runOps (List.replicate n .tickTimers) (tickTimersOp s) := rfl
      _ = { s with dt := BitVec.ofNat 8 ((tick s.dt).toNat - n), st := BitVec.ofNat 8 ((tick s.st).toNat - n) } := ih _
      _ = { s with dt := BitVec.ofNat 8 (s.dt.toNat - (n + 1)), st := BitVec.ofNat 8 (s.st.toNat - (n + 1)) } := by
        rw [ofNat_toNat_tick_sub, ofNat_toNat_tick_sub]

/-- Settles O58: each of the two operations is the one write it names. -/
theorem hostWritesOneBit : Obligations.HostWritesOneBit :=
  ⟨fun _ _ _ => rfl, fun _ _ => rfl⟩

end Sys2Proof.Machine

/-! The host's operations (70_reset_and_hazards.md R270 to R285): reset, load, and the invariant over every sequence of
operations. -/

namespace Sys2Proof.Machine

/-! ### The invariant over the host's operations (R279, R281) -/

/-- The invariant reads memory, the stack, PC, the DecodeFault log, the fault record and `ran`, and nothing else. -/
theorem State.Inv.congr {s t : State} (h : s.Inv) (hmem : Memory.wf t.mem = true) (hstack : t.stack = s.stack)
    (hpc : t.pc = s.pc) (hdfc : t.dfc = s.dfc) (hlast : t.lastDf = s.lastDf) (hfault : t.fault = s.fault)
    (hran : t.ran = s.ran) : t.Inv where
  mem_wf := hmem
  stack_len := hstack ▸ h.stack_len
  stack_entries := hstack ▸ h.stack_entries
  pc_bound := hpc ▸ h.pc_bound
  dfc_log := by rw [hdfc, hlast]; exact h.dfc_log
  fault_pc := by rw [hfault, hran, hpc]; exact h.fault_pc
  fault_space := hfault ▸ h.fault_space

theorem State.Inv.afterMark {s : State} (h : s.Inv) : (markRefused s).Inv :=
  h.congr h.mem_wf rfl rfl rfl rfl rfl rfl

/-- A reset state differs from that of creation in the mode and the draw counter alone. -/
theorem resetOp_inv (s : State) : (resetOp s).Inv :=
  State.Inv.congr resetSatisfiesInv Memory.wf_nil rfl rfl rfl rfl rfl rfl

theorem State.Inv.afterLoad {s : State} (h : s.Inv) (image : Option (List Byte)) : (loadOp image s).2.Inv := by
  obtain ⟨bytes, hl⟩ | hl | hl := loadOp_cases image s
  · rw [hl, copyBytes_eq]
    exact h.congr (wf_copyBytes h.mem_wf) rfl rfl rfl rfl rfl rfl
  · rwa [hl]
  · rw [hl]
    exact h.afterMark

theorem State.Inv.afterCycle {s : State} (h : s.Inv) : (cycleOp s).2.Inv := by
  obtain hc | hc | hc := cycleOp_cases s
  · exact stepKeepsInv s _ h hc
  · rwa [hc]
  · rw [hc]
    exact h.afterMark

theorem State.Inv.afterTransact {s : State} (h : s.Inv) (op : HostOp) : (transact op s).2.Inv := by
  cases op with
  | reset => exact resetOp_inv s
  | load image => exact h.afterLoad image
  | cycle => exact h.afterCycle
  | setExtendedMode | tickTimers | setKey => exact h.congr h.mem_wf rfl rfl rfl rfl rfl rfl

/-- Settles O19, by induction on the sequence: each operation keeps the invariant. -/
theorem hostOperationsKeepInv : Obligations.HostOperationsKeepInv := by
  intro ops
  induction ops with
  | nil => exact fun _ h => h
  | cons op rest ih => exact fun _ h => ih _ (h.afterTransact op)

/-! ### load (R272 to R274) -/

/-- Where no cycle has run, an image that fits is copied to LOAD_ADDR (R274). -/
theorem loadOp_of_fits {bytes : List Byte} {s : State} (hran : s.ran = false) (hlen : bytes.length ≤ 3584) :
    loadOp (some bytes) s = (.loaded true, copyBytes 0x200 bytes s) := by
  simp [loadOp, hran, Nat.not_lt.2 hlen]

/-- Settles O56, by what stops a load: a cycle that has run, an image that was not read, one too long, or nothing. -/
theorem loadCopiesImage : Obligations.LoadCopiesImage := by
  refine ⟨fun image s hran => ?_, fun s hran => ?_, fun bytes s hran hlen => ?_, fun bytes s hwf hran hlen => ?_⟩
  · simp [transact, loadOp, hran]
  · simp [transact, loadOp, hran]
  · simp [transact, loadOp, hran, hlen]
  · have hread := readByte_copyBytes (a := 0x200) hwf (show 0x200 + bytes.length ≤ 4096 by omega)
    refine ⟨_, loadOp_of_fits hran hlen, copyBytes_eq _ _ _, fun k hk => ?_, fun a ha => ?_⟩
    · rw [hread]
      simp [hk]
    · rw [hread, dif_neg (by omega)]

/-! ### reset (R270) -/

/-- Memory after any reset is that of creation. -/
theorem readByte_resetOp (s : State) (a : Nat) : (resetOp s).readByte a = Config.fontData.getD a 0 := readByte_reset a

/-- Settles O53: the values of R53, the font and the zeros after it in memory, and a blank framebuffer in the mode that
the flag names. -/
theorem resetReinitialises : Obligations.ResetReinitialises := by
  refine fun s => ⟨resetOp s, rfl, fun x => ?_, rfl, rfl, rfl, rfl, rfl, fun a _ => ?_, ?_, fun x y _ _ => ?_, rfl,
    fun k => ?_, rfl, rfl, rfl, rfl, rfl⟩
  · exact Vector.getElem_replicate _
  · rw [readByte_resetOp]
    split
    · exact List.getD_eq_getElem _ _ _
    · exact List.getD_eq_default _ _ (by omega)
  · exact Framebuffer.activeExt_blank s.modeExt
  · exact Framebuffer.get_blank s.modeExt x y
  · exact Vector.getElem_replicate _

end Sys2Proof.Machine

/-! The decoder and the encoder are inverse to each other (30_encoding.md R100 to R108): the fields of a word are the
operands of the instruction, and they make up the word again. -/

namespace Sys2Proof

/-! ### Decoding an encoded word, by the families that have a sub-function -/

section encoded

variable (x y : Reg) (n : BitVec 4) (nn : Byte) (ext : Bool)

theorem decode_encXY_eight : decode (encXY 0x8 x y n) ext = decode8 x y n := by
  simp [decode]

theorem decode_encXY_thirteen : decode (encXY 0xD x y n) ext = decodeD x y n ext := by
  simp [decode]

theorem decode_encXB_fourteen : decode (encXB 0xE x nn) ext = decodeE x nn := by
  simp [decode]

theorem decode_encXB_fifteen : decode (encXB 0xF x nn) ext = decodeF x nn ext := by
  simp [decode]

end encoded

/-- DRW has at least one row (R107, R180). -/
theorem wellFormed_drw {x y : Reg} {n : Fin 16} : WellFormed (.drw x y n) ↔ n ≠ 0 := bne_iff_ne

theorem decodeD_toNibble {n : Fin 16} (hn : n ≠ 0) (x y : Reg) (ext : Bool) :
    decodeD x y (toNibble n) ext = .instr (.drw x y n) := by
  simp [decodeD, toNibble_ne_zero hn]

/-- Settles O1, by cases on the family of the instruction. -/
theorem decodeEncodeRoundTrip : Obligations.DecodeEncodeRoundTrip := by
  intro i ext hwf hext
  cases i with
  | cls | ret => rfl
  | drw x y n => exact (decode_encXY_thirteen ..).trans (decodeD_toNibble (wellFormed_drw.1 hwf) x y ext)
  | drw0 x y =>
    cases ext with
    | false => exact decode_encXY_thirteen ..
    | true => exact absurd rfl (hext rfl x y)
  | ldR | or | and | xor | addR | sub | shr | subn | shl => exact decode_encXY_eight ..
  | skp | sknp => exact decode_encXB_fourteen ..
  | ldVxDt | ldVxK | ldDtVx | ldStVx | addI | ldF | ldBcd | ldMemVx | ldVxMem => exact decode_encXB_fifteen ..
  | jp | call | ldI | jpV0 | seB | sneB | ldB | addB | rnd | seR | sneR => simp [decode, encode]

/-! ### Encoding a decoded word -/

/-- The word `w` is that of the well-formed instruction `i`, which this mode does not refuse. -/
def IsWordOf (w : Word) (ext : Bool) (i : Instr) : Prop :=
  encode i = w ∧ WellFormed i ∧ (ext = true → ∀ x y, i ≠ .drw0 x y)

section fields

variable {w : Word} {op : BitVec 4} (h : fieldOp w = op)
include h

theorem encA_of_fieldOp : encA op (fieldNnn w) = w := h ▸ encA_fields w

theorem encXB_of_fieldOp : encXB op (ofNibble (fieldX w)) (fieldNn w) = w := h ▸ encXB_fields w

theorem encXY_of_fieldOp : encXY op (ofNibble (fieldX w)) (ofNibble (fieldY w)) (fieldN w) = w := h ▸ encXY_fields w

end fields

section subDecoders

variable {w : Word} {op n : BitVec 4} {x y : Reg} {nn : Byte} {ext : Bool} {i : Instr}

theorem isWordOf_decode0 (h : decode0 w ext = .instr i) : IsWordOf w ext i := by
  rw [decode0_eq] at h
  split_ifs at h with hcls hret
  · cases h
    exact ⟨hcls.symm, rfl, fun _ _ => nofun⟩
  · cases h
    exact ⟨hret.symm, rfl, fun _ _ => nofun⟩
  · cases ext <;> cases h

theorem isWordOf_decode8 (h : decode8 x y n = .instr i) : IsWordOf (encXY 0x8 x y n) ext i := by
  unfold decode8 at h
  split at h
  case h_10 => cases h
  all_goals
    cases h
    exact ⟨rfl, rfl, fun _ _ => nofun⟩

theorem isWordOf_decodeD (h : decodeD x y n ext = .instr i) : IsWordOf (encXY 0xD x y n) ext i := by
  unfold decodeD at h
  split_ifs at h with hn hext
  · cases h
    exact ⟨by simp [encode], wellFormed_drw.2 (ofNibble_ne_zero hn), fun _ _ => nofun⟩
  · cases h
    obtain rfl : n = 0 := not_not.1 hn
    exact ⟨rfl, rfl, fun he => absurd he hext⟩

theorem isWordOf_decodeE (h : decodeE x nn = .instr i) : IsWordOf (encXB 0xE x nn) ext i := by
  unfold decodeE at h
  split at h
  case h_3 => cases h
  all_goals
    cases h
    exact ⟨rfl, rfl, fun _ _ => nofun⟩

theorem isWordOf_decodeF (h : decodeF x nn ext = .instr i) : IsWordOf (encXB 0xF x nn) ext i := by
  unfold decodeF at h
  split at h
  case h_10 | h_11 | h_12 => cases ext <;> cases h
  case h_13 => cases h
  all_goals
    cases h
    exact ⟨rfl, rfl, fun _ _ => nofun⟩

end subDecoders

/-- Settles O2: by the family of the word, its fields make it up again. Case `h_k` of the split is family k - 1, as in
`dispatchTable`. -/
theorem encodeDecodeRoundTrip : Obligations.EncodeDecodeRoundTrip := by
  intro w ext i h
  change IsWordOf w ext i
  unfold decode at h
  dsimp only at h
  split at h
  case h_1 => exact isWordOf_decode0 h
  case h_9 hop => exact encXY_of_fieldOp hop ▸ isWordOf_decode8 h
  case h_14 hop => exact encXY_of_fieldOp hop ▸ isWordOf_decodeD h
  case h_15 hop => exact encXB_of_fieldOp hop ▸ isWordOf_decodeE h
  case h_16 =>
    have hop : fieldOp w = 0xF#4 := by
      simp only [imp_false] at *
      bv_omega
    exact encXB_of_fieldOp hop ▸ isWordOf_decodeF h
  case h_6 hop | h_10 hop =>
    split at h
    case isTrue hn =>
      cases h
      exact ⟨by rw [encode, ← hn, encXY_of_fieldOp hop], rfl, fun _ _ => nofun⟩
    case isFalse => cases h
  case h_2 hop | h_3 hop | h_11 hop | h_12 hop =>
    cases h
    exact ⟨encA_of_fieldOp hop, rfl, fun _ _ => nofun⟩
  case h_4 hop | h_5 hop | h_7 hop | h_8 hop | h_13 hop =>
    cases h
    exact ⟨encXB_of_fieldOp hop, rfl, fun _ _ => nofun⟩

/-- Settles O3: ten closed words, evaluated. -/
theorem sampleWordsDecode : Obligations.SampleWordsDecode := by
  unfold Obligations.SampleWordsDecode
  decide

end Sys2Proof
